-- ==== Sys2Proof/Word.lean ====
section
/-! DEFINITION. The widths of the block's data (00_scope.md R7, R9): bytes, 16-bit checksum values and 12-bit command words. -/

namespace Sys2Proof

/-- The unit of data, an unsigned 8-bit byte (R7). -/
abbrev Byte := BitVec 8

/-- A 16-bit value: the checksum state and its read-out (R7). -/
abbrev Half := BitVec 16

/-- A command word `cw[11:0]` (30_encoding.md R56). -/
abbrev CmdWord := BitVec 12

end Sys2Proof
end

