-- ==== Sys2Proof/Syntax.lean ====
section
/-! DEFINITION. The block's commands (30_encoding.md R57), the records of the wire format (10_state.md R21, 41_header_packet.md R81) and
the pseudo-instructions (30_encoding.md R63), as data. -/

namespace Sys2Proof

/-- The six commands, one constructor per row of the opcode table (R57, R58). -/
inductive Instr where
  /-- NOP: does nothing (R72). -/
  | nop
  /-- CS.RESET: resets the accumulator (R66). -/
  | csReset
  /-- CS.UPDATE b: folds one byte into the accumulator (R67). -/
  | csUpdate (b : Byte)
  /-- CS.READ: returns the checksum value (R68). -/
  | csRead
  /-- RX.RESET: abandons the stream (R97). -/
  | rxReset
  /-- RX.BYTE b: consumes one byte of the stream (R89). -/
  | rxByte (b : Byte)
deriving DecidableEq, Repr

/-- A header record (R21); its fields are unsigned integers of these widths. -/
structure Header where
  version : BitVec 32
  operation : Half
  tag : Half
  payloadLength : BitVec 32
  headerChecksum : Half
  payloadChecksum : Half
deriving DecidableEq, Repr

/-- A packet: a header record and its payload (R81). -/
structure Packet where
  header : Header
  payload : List Byte
deriving DecidableEq, Repr

/-- The pseudo-instructions of R63. -/
inductive PseudoOp where
  /-- CS.UPDSEQ s: the source's update(sequence). -/
  | csUpdseq (s : List Byte)
  /-- CS.SUM s: the checksum of a sequence. -/
  | csSum (s : List Byte)
  /-- RX.FEED c: the source's feed(bytes). -/
  | rxFeed (c : List Byte)
  /-- RX.FRAME v, o, t, p: the frame of FromFields, fed to FRX. -/
  | rxFrame (version operation tag : Nat) (payload : List Byte)
deriving DecidableEq, Repr

end Sys2Proof
end

