-- ==== Sys2Proof/Config.lean ====
section
/-! DEFINITION. The build parameters (00_scope.md R4 to R8, 70_reset_and_hazards.md R131), and the values the spec leaves open.
The parameters are fixed when the block is built; no command and no reset changes them. An `opaque` constant has no
body: nothing can be proved of its value. -/

namespace Sys2Proof

/-- The parameters that are free up to the constraints of R8. -/
structure Config where
  /-- CSUM_POLY, any 16-bit value (R5, R8). -/
  csumPoly : Half
  /-- MAX_FRAME_SIZE, header and payload together, in bytes (R6). -/
  maxFrameSize : Nat
deriving DecidableEq, Repr

/-- HEADER_SIZE (R4), fixed by the header's field table. -/
def Config.headerSize : Nat := 16

/-- MAX_PAYLOAD = MAX_FRAME_SIZE - HEADER_SIZE (R6). -/
def Config.maxPayload (c : Config) : Nat := c.maxFrameSize - Config.headerSize

/-- BUF_CAP = max(HEADER_SIZE, MAX_PAYLOAD) (20_memory.md R35). -/
def Config.bufCap (c : Config) : Nat := max Config.headerSize c.maxPayload

/-- The constraints of R8. A configuration outside them is refused. -/
def Config.valid (c : Config) : Bool := 16 ≤ c.maxFrameSize && c.maxFrameSize ≤ 2 ^ 32 - 1 + 16

/-- The block's parameters: the only conforming values (R5, R6). -/
def Config.block : Config := { csumPoly := 0x8005, maxFrameSize := 4096 }

/-- Whether a build drives the continuous output `cs_value_o` (30_encoding.md R61, 93_implementation_defined.md I9): left to
the builder. Log entry 13. -/
opaque Config.csValueOutput : Bool

/-- The `unset` headerChecksum of a packet made by FromFields (41_header_packet.md R82, I11): any value. Log entry 9. -/
opaque Config.unsetHeaderChecksum : Nat → Nat → Nat → List Byte → Half

/-- `cs_value` at power-on, before the first reset (I4): any value. Log entry 8. -/
opaque Config.powerOnCsValue : Half

/-- `cs_prev` at power-on (I4): any value. Log entry 8. -/
opaque Config.powerOnCsPrev : Byte

/-- The contents of `rx_buf` at power-on (I4): any value. Log entry 8. -/
opaque Config.powerOnRxBuf : List Byte

/-- `rx_pend` at power-on (I4): any value. Log entry 8. -/
opaque Config.powerOnRxPend : Option Header

end Sys2Proof
end

