-- ==== Sys2Proof/WellFormed.lean ====
section
/-! DEFINITION. The checks on syntax. -/

namespace Sys2Proof

/-- Every term of `Instr` is a command of the block: the one operand there is, the byte of format CW-B, fits `data[7:0]` by its
type and every byte is legal (30_encoding.md R56, 40_checksum.md R67, 42_unpacker.md R89). The match names each command so that a
new one cannot pass unseen. -/
def Instr.wf : Instr → Bool
  | .nop | .csReset | .csRead | .rxReset => true
  | .csUpdate b | .rxByte b => b.toNat < 256

/-- The invariant of a packet (41_header_packet.md R81): its payload is as long as its header says. -/
def Packet.wf (p : Packet) : Bool := p.payload.length == p.header.payloadLength.toNat

/-- The length bound of a header the receiver accepts (30_encoding.md R55). -/
def Header.withinBound (c : Config) (hd : Header) : Bool := hd.payloadLength.toNat ≤ c.maxPayload

/-- The operands of a pseudo-op lie in the domain of R87. Only RX.FRAME has operands that can lie outside it. -/
def PseudoOp.wf : PseudoOp → Bool
  | .csUpdseq _ | .csSum _ | .rxFeed _ => true
  | .rxFrame v o t p => v < 2 ^ 32 && o < 2 ^ 16 && t < 2 ^ 16 && p.length ≤ 2 ^ 32 - 1

end Sys2Proof
end

