-- ==== Sys2Proof/Decode.lean ====
section
/-! DEFINITION. The command word's decoder and encoder (30_encoding.md R56 to R60), and the match and mask rows of the opcode table.
Decoding is total: a word that is no command decodes to `reserved`, by name. -/

namespace Sys2Proof

/-- What a command word decodes to (R60). -/
inductive Decoded where
  | instr (i : Instr)
  /-- `Reserved(cw)`: a word outside R58; it is refused (R59). -/
  | reserved (cw : CmdWord)
deriving DecidableEq, Repr

/-- `op = cw[11:8]` (R56). -/
def opField (cw : CmdWord) : BitVec 4 := cw.extractLsb' 8 4

/-- `data = cw[7:0]` (R56). -/
def dataField (cw : CmdWord) : Byte := cw.extractLsb' 0 8

/-- A word of format CW-N is legal only with `data = 0x00` (R56). -/
def noOperand (cw : CmdWord) (i : Instr) : Decoded :=
  if dataField cw = 0 then .instr i else .reserved cw

/-- `Decode(cw)` (R57 to R60). -/
def decode (cw : CmdWord) : Decoded :=
  match (opField cw).toNat with
  | 0x0 => noOperand cw .nop
  | 0x1 => noOperand cw .csReset
  | 0x2 => .instr (.csUpdate (dataField cw))
  | 0x3 => noOperand cw .csRead
  | 0x8 => noOperand cw .rxReset
  | 0x9 => .instr (.rxByte (dataField cw))
  | _ => .reserved cw

/-- `cw = {op, data}` (R56, R62). -/
def commandWord (op : BitVec 4) (data : Byte) : CmdWord := op ++ data

/-- The command word of an instruction (R58). -/
def encode : Instr → CmdWord
  | .nop => commandWord 0x0 0
  | .csReset => commandWord 0x1 0
  | .csUpdate b => commandWord 0x2 b
  | .csRead => commandWord 0x3 0
  | .rxReset => commandWord 0x8 0
  | .rxByte b => commandWord 0x9 b

/-- One row of the table of R58. -/
structure OpcodeRow where
  mnemonic : String
  pattern : CmdWord
  mask : CmdWord
deriving DecidableEq, Repr

/-- The word agrees with the row's pattern in every bit of its mask (R58). -/
def OpcodeRow.matches (r : OpcodeRow) (cw : CmdWord) : Bool := cw &&& r.mask == r.pattern

/-- The row of R58 that each command belongs to. -/
def tableRow : Instr → OpcodeRow
  | .nop => { mnemonic := "NOP", pattern := 0x000, mask := 0xFFF }
  | .csReset => { mnemonic := "CS.RESET", pattern := 0x100, mask := 0xFFF }
  | .csUpdate _ => { mnemonic := "CS.UPDATE", pattern := 0x200, mask := 0xF00 }
  | .csRead => { mnemonic := "CS.READ", pattern := 0x300, mask := 0xFFF }
  | .rxReset => { mnemonic := "RX.RESET", pattern := 0x800, mask := 0xFFF }
  | .rxByte _ => { mnemonic := "RX.BYTE", pattern := 0x900, mask := 0xF00 }

/-- The rows of R58 in the table's order. -/
def opcodeTable : List OpcodeRow :=
  [tableRow .nop, tableRow .csReset, tableRow (.csUpdate 0), tableRow .csRead, tableRow .rxReset, tableRow (.rxByte 0)]

/-- The words that R59 lists as no command: an unassigned op, or nonzero data with an op of format CW-N. -/
def reservedWord (cw : CmdWord) : Bool :=
  let op := (opField cw).toNat
  (4 ≤ op && op ≤ 7) || (10 ≤ op && op ≤ 15) || ((op == 0 || op == 1 || op == 3 || op == 8) && dataField cw != 0)

/-- The command word as the host of this package numbers it: `w` is the word's bits, bit 0 the least significant. The port has
12 lines, so a number above 0xFFF is no command word (log entry 15); `_nbits` adds nothing, since every bit above it is 0. -/
def decodeTableWord (_nbits w : Nat) : Option Instr :=
  if w < 2 ^ 12 then
    match decode (BitVec.ofNat 12 w) with
    | .instr i => some i
    | .reserved _ => none
  else none

end Sys2Proof
end

