-- ==== Sys2Proof/Machine/State.lean ====
section
/-! DEFINITION. The state of one block (10_state.md R15 to R32), the reasons of its marks, and the state after reset. -/

namespace Sys2Proof.Machine

/-- Model faults (60_exceptions.md R118). -/
inductive Fault where
  /-- `NotReset(cw)`: any command before the first `rst`. It is recorded in the mark `State.fault` and the run goes on, since the
  spec gives that step its effect (R118, log entry 3). Safe: a claim about a run has 'no fault recorded' as a premise (R30). -/
  | notReset (cw : CmdWord)
deriving DecidableEq, Repr

/-- Model refusals (60_exceptions.md R119) and the model's own. -/
inductive Refusal where
  /-- An instruction without a meaning; exec alone raises it, and no arm does. Safe. -/
  | notModelled (mnemonic : String)
  /-- `Reserved(cw)`: a word outside R58, recorded in the mark `State.refused` (R59, R119). Safe (R30). -/
  | reserved (cw : CmdWord)
  /-- `Overlap`: a command issued while another is in progress, recorded in the mark (R119, R132). Safe (R30). -/
  | overlap
  /-- `Reentrant`: a command the consumer issues from inside a delivery, recorded in the mark (R119, R133). Safe (R30). -/
  | reentrant
  /-- A configuration outside 00_scope.md R8: every step answers this refusal. Safe. -/
  | configOutsideConstraints
deriving DecidableEq, Repr

/-- The discard reasons (60_exceptions.md R108); `DiscardReason.code` gives their codes. -/
inductive DiscardReason where
  | hdrCsum
  | oversize
  | payloadCsum
deriving DecidableEq, Repr

/-- One record of the discard log: the reason and the number of bytes dropped (10_state.md R29). -/
structure Discard where
  reason : DiscardReason
  bytes : Nat
deriving DecidableEq, Repr

/-- The FSM states (10_state.md R22). -/
inductive Fsm where
  | awaitingHeader
  | awaitingPayload
deriving DecidableEq, Repr

/-- One command the host issues: its word; the words it issues, against 70_reset_and_hazards.md R132, while that command is in
progress (`cmd_ready` low); and the words the consumer issues, against R133, from inside the delivery that command makes (it issues
none if there is no delivery). -/
structure Issue where
  word : CmdWord
  overlapping : List CmdWord
  fromConsumer : List CmdWord
deriving DecidableEq, Repr

/-- What stands on the block's inputs in one step: `rst`, and the command issued, if any (00_scope.md R13, R126, R132). -/
structure HostEvent where
  rst : Bool
  issue : Option Issue
deriving DecidableEq, Repr

/-- The state of one block. -/
structure State where
  /-- `cs_value`, the accumulator (R16). -/
  csValue : Half
  /-- `cs_prev`, the hidden previous byte (R17, R18). -/
  csPrev : Byte
  /-- `rx_buf`, the bytes of the header or payload in progress (R19). -/
  rxBuf : List Byte
  /-- `rx_pend`, the validated header whose payload is awaited (R20). -/
  rxPend : Option Header
  /-- The packets delivered so far, oldest first (R28). -/
  deliveries : List Packet
  /-- The discard log, oldest first; model-only (R29). -/
  discards : List Discard
  /-- The `fault` mark, set when it holds a reason; every reason is kept, oldest first (R30, log entry 3). -/
  fault : List Fault
  /-- The `refused` mark, set when it holds a reason (R30, log entry 3). -/
  refused : List Refusal
  /-- False from power-on to the first reset (R32). -/
  poweredUp : Bool
  /-- The values CS.READ has returned on the result bus `rd`, oldest first (30_encoding.md R61). The model's own, log entry 2. -/
  results : List Half
  /-- What the host will put on the inputs, next step first. The model's own, log entry 1. -/
  port : List HostEvent
deriving DecidableEq, Repr

/-- The block right after reset (10_state.md R31), with nothing yet issued by the host. The marks are not set: reset does not change
them and nothing has set them. -/
def State.reset : State where
  csValue := 0x0000
  csPrev := 0x00
  rxBuf := []
  rxPend := none
  deliveries := []
  discards := []
  fault := []
  refused := []
  poweredUp := true
  results := []
  port := []

/-- The block at power-on, before any reset (10_state.md R32): the registers hold no value the spec names, so they are free values
(93_implementation_defined.md I4, log entry 8). -/
def State.powerOn : State where
  csValue := Config.powerOnCsValue
  csPrev := Config.powerOnCsPrev
  rxBuf := Config.powerOnRxBuf
  rxPend := Config.powerOnRxPend
  deliveries := []
  discards := []
  fault := []
  refused := []
  poweredUp := false
  results := []
  port := []

end Sys2Proof.Machine
end

