-- ==== Sys2Proof/Machine/Operands.lean ====
section
/-! DEFINITION. The byte codec, the header layout and the other ways the block reads bytes (30_encoding.md R49 to R52, 00_scope.md R10). -/

namespace Sys2Proof.Machine

/-- `swap16(v) = {v[7:0], v[15:8]}` (R10). -/
def swap16 (v : Half) : Half := v.extractLsb' 0 8 ++ v.extractLsb' 8 8

/-- `s[a..b)`: elements a to b-1 (R10). -/
def slice (s : List Byte) (a b : Nat) : List Byte := (s.drop a).take (b - a)

/-- `DecodeUint(s, w)`, big-endian (R49). Every caller passes at least w bytes; on fewer the model reads those there are (log entry 11). -/
def decodeUint (s : List Byte) (w : Nat) : Nat := (s.take w).foldl (fun v b => 256 * v + b.toNat) 0

/-- The w low bytes of v, most significant first. -/
def uintBytes : Nat → Nat → List Byte
  | 0, _ => []
  | w + 1, v => BitVec.ofNat 8 (v / 256 ^ w) :: uintBytes w v

/-- What lies outside the domain of the send-side functions (41_header_packet.md R87). DESIGN CHOICE (log entry 22): such a call is refused
as an error of the function, with these reasons of the model's own, and sets no mark of the state. -/
inductive DomainError where
  /-- A value that does not fit in w bytes (R50). -/
  | valueTooWide
  | versionTooWide
  | operationTooWide
  | tagTooWide
  /-- A payload of more than 2^32 - 1 bytes. -/
  | payloadTooLong
deriving DecidableEq, Repr

/-- `EncodeUint(v, w)`, big-endian (R50); a value that does not fit is refused, not truncated (R87, log entry 22). -/
def encodeUint (v w : Nat) : Except DomainError (List Byte) :=
  if v < 2 ^ (8 * w) then .ok (uintBytes w v) else .error .valueTooWide

/-- `DecodeHeader(h)` (R51, 41_header_packet.md R77). It checks nothing (R79). -/
def decodeHeader (h : List Byte) : Header where
  version := BitVec.ofNat 32 (decodeUint (slice h 0 4) 4)
  operation := BitVec.ofNat 16 (decodeUint (slice h 4 6) 2)
  tag := BitVec.ofNat 16 (decodeUint (slice h 6 8) 2)
  payloadLength := BitVec.ofNat 32 (decodeUint (slice h 8 12) 4)
  headerChecksum := BitVec.ofNat 16 (decodeUint (slice h 12 14) 2)
  payloadChecksum := BitVec.ofNat 16 (decodeUint (slice h 14 16) 2)

/-- The first 12 header bytes, those the header checksum covers (R80). The fields fit their widths, so EncodeUint refuses none. -/
def headerFields (hd : Header) : List Byte :=
  uintBytes 4 hd.version.toNat ++ uintBytes 2 hd.operation.toNat ++ uintBytes 2 hd.tag.toNat ++ uintBytes 4 hd.payloadLength.toNat

end Sys2Proof.Machine
end

