-- ==== Sys2Proof/Machine/Checksum.lean ====
section
/-! DEFINITION. The checksum functions (40_checksum.md R64, R65, R69). -/

namespace Sys2Proof.Machine

/-- `CsumStep(v, p, b)` (R64): shift, the polynomial when bit 15 was set before the shift, then the word of the byte pair with the
previous byte high and the current byte low (90_conflicts.md C2). The type keeps bits 15:0. -/
def csumStep (c : Config) (v : Half) (p b : Byte) : Half × Byte :=
  let t := v <<< 1
  let t := if v.msb then t ^^^ c.csumPoly else t
  (t ^^^ (p ++ b), b)

/-- The updates of a byte sequence in order, from the state `a`. -/
def csumFoldFrom (c : Config) (a : Half × Byte) (s : List Byte) : Half × Byte :=
  s.foldl (fun a b => csumStep c a.1 a.2 b) a

/-- `CsumFold(s)`, from a fresh accumulator (R69, 70_reset_and_hazards.md R129). -/
def csumFold (c : Config) (s : List Byte) : Half × Byte := csumFoldFrom c (0x0000, 0x00) s

/-- `CsumOf(s) = swap16(CsumFold(s).v)` (R69). -/
def csumOf (c : Config) (s : List Byte) : Half := swap16 (csumFold c s).1

/-- The update in a register of `n` bits, `n ≥ 16`, that drops nothing below bit n (R65): the same shift, test of bit 15 and XORs. -/
def csumStepWide (c : Config) (n : Nat) (v : BitVec n) (p b : Byte) : BitVec n × Byte :=
  let t := v <<< 1
  let t := if v.getLsbD 15 then t ^^^ c.csumPoly.setWidth n else t
  (t ^^^ (p ++ b).setWidth n, b)

end Sys2Proof.Machine
end

