-- ==== Sys2Proof/Machine/Flags.lean ====
section
/-! DEFINITION. The block has no flags (10_state.md R25). What its transitions test is computed here: the conditions of 42_unpacker.md R88. -/

namespace Sys2Proof.Machine

/-- `ValidateHeaderChecksum(h)` (41_header_packet.md R78): over the first 12 bytes only. -/
def validateHeaderChecksum (c : Config) (h : List Byte) : Bool :=
  (csumOf c (slice h 0 12)).toNat == decodeUint (slice h 12 14) 2

/-- The length bound `payloadLength > MAX_PAYLOAD`, an exact comparison (42_unpacker.md R91, 00_scope.md R11). -/
def oversized (c : Config) (hd : Header) : Bool := hd.payloadLength.toNat > c.maxPayload

/-- The payload check (42_unpacker.md R92, R95): a fresh accumulator over the payload bytes only. -/
def payloadChecksumOk (c : Config) (hd : Header) (payload : List Byte) : Bool := csumOf c payload == hd.payloadChecksum

end Sys2Proof.Machine
end

