-- ==== Sys2Proof/Machine/Ops.lean ====
section
/-! DEFINITION. The named operations over the state: the buffer primitives, deliveries and discards, the result bus, the marks, reset, and
what every command does first. -/

namespace Sys2Proof.Machine

/-- The FSM state is a function of `rx_pend` (10_state.md R22). -/
def State.fsm (s : State) : Fsm := if s.rxPend.isSome then .awaitingPayload else .awaitingHeader

/-- `BufAppend(b)` (20_memory.md R36). -/
def State.bufAppend (s : State) (b : Byte) : State := { s with rxBuf := s.rxBuf ++ [b] }

/-- `BufClear` (20_memory.md R38). -/
def State.bufClear (s : State) : State := { s with rxBuf := [] }

/-- `rx_pend <- v` (10_state.md R20). -/
def State.setPend (s : State) (v : Option Header) : State := { s with rxPend := v }

/-- `BufClear; rx_pend <- none`: FRX as it is after reset (42_unpacker.md R97). -/
def State.frxClear (s : State) : State := s.bufClear.setPend none

/-- Write the CSUM registers (10_state.md R16, R17). -/
def State.setCsum (s : State) (v : Half × Byte) : State := { s with csValue := v.1, csPrev := v.2 }

/-- Return a value to the host on the result bus (30_encoding.md R61). -/
def State.returnResult (s : State) (v : Half) : State := { s with results := s.results ++ [v] }

/-- `emit Deliver(p)` (42_unpacker.md R99). -/
def State.emitDeliver (s : State) (p : Packet) : State := { s with deliveries := s.deliveries ++ [p] }

/-- `note Discard(reason, n)` (10_state.md R29). -/
def State.noteDiscard (s : State) (r : DiscardReason) (n : Nat) : State := { s with discards := s.discards ++ [⟨r, n⟩] }

/-- The numeric codes of 60_exceptions.md R108. -/
def DiscardReason.code : DiscardReason → Nat
  | .hdrCsum => 1
  | .oversize => 2
  | .payloadCsum => 3

/-- A discard record as 10_state.md R29 writes it: `(reason, n)`, the reason a code of R108. -/
def Discard.record (d : Discard) : Nat × Nat := (d.reason.code, d.bytes)

/-- The discard log in codes, oldest first (R29, R108). -/
def State.discardLog (s : State) : List (Nat × Nat) := s.discards.map Discard.record

/-- Taking a discard: its three actions, in one step (60_exceptions.md R113). The next byte is the first of a new header (R114). -/
def State.discard (s : State) (r : DiscardReason) (n : Nat) : State := (s.noteDiscard r n).frxClear

/-- Delivering the completed packet and returning to AwaitingHeader (42_unpacker.md R92, R95). -/
def State.deliver (s : State) (p : Packet) : State := (s.emitDeliver p).frxClear

/-- Set the `fault` mark (60_exceptions.md R118). It is never cleared (10_state.md R30). -/
def State.raiseFault (s : State) (f : Fault) : State := { s with fault := s.fault ++ [f] }

/-- Set the `refused` mark (60_exceptions.md R119). It is never cleared (10_state.md R30). -/
def State.raiseRefusal (s : State) (r : Refusal) : State := { s with refused := s.refused ++ [r] }

/-- The step of an asserted `rst` (70_reset_and_hazards.md R126): every element takes its value of 10_state.md R31; the marks and what
the host will issue stay (log entries 1, 2). -/
def State.assertRst (s : State) : State := { State.reset with fault := s.fault, refused := s.refused, port := s.port }

/-- A configuration outside the constraints of 00_scope.md R8 is refused (log entry 10). -/
def configured (c : Config) (o : Host.Outcome State Fault Refusal) : Host.Outcome State Fault Refusal :=
  if c.valid then o else .refused .configOutsideConstraints

/-- What every command does: before the first reset it sets the fault mark with its word and nothing else (60_exceptions.md R118);
after it, it has its effect. -/
def command (i : Instr) (effect : State → State) (s : State) : Host.Outcome State Fault Refusal :=
  configured Config.block (.next (if s.poweredUp then effect s else s.raiseFault (.notReset (encode i))))

/-- The continuous output `cs_value_o`, where a build drives it (30_encoding.md R61, log entry 13). -/
def State.csValueO (s : State) : Option Half := if Config.csValueOutput then some (swap16 s.csValue) else none

end Sys2Proof.Machine
end

