-- ==== Sys2Proof/Machine/Csum.lean ====
section
/-! DEFINITION. The meanings of NOP and of the CSUM commands (40_checksum.md R66 to R68, R72). None of them touches FRX. -/

namespace Sys2Proof.Machine

/-- NOP (R72): no state is written and nothing is returned. -/
def execNop (s : State) : Host.Outcome State Fault Refusal := command .nop (fun s => s) s

/-- CS.RESET (R66). -/
def execCsReset (s : State) : Host.Outcome State Fault Refusal := command .csReset (·.setCsum (0x0000, 0x00)) s

/-- CS.UPDATE b (R67). -/
def execCsUpdate (b : Byte) (s : State) : Host.Outcome State Fault Refusal :=
  command (.csUpdate b) (fun s => s.setCsum (csumStep Config.block s.csValue s.csPrev b)) s

/-- CS.READ (R68): `rd <- swap16(cs_value)`; no register is written. -/
def execCsRead (s : State) : Host.Outcome State Fault Refusal :=
  command .csRead (fun s => s.returnResult (swap16 s.csValue)) s

end Sys2Proof.Machine
end

