-- ==== Sys2Proof/Machine/Packet.lean ====
section
/-! DEFINITION. Packets and the send-side reference functions (41_header_packet.md R80 to R87). They write no state. -/

namespace Sys2Proof.Machine

/-- `FromWire(hd, payload)`: no validation of its own (R84). -/
def fromWire (hd : Header) (payload : List Byte) : Packet := { header := hd, payload := payload }

/-- `EncodeHeader(hd)` (R80): the header checksum is computed afresh and the stored one is ignored. -/
def encodeHeader (c : Config) (hd : Header) : List Byte :=
  headerFields hd ++ uintBytes 2 (csumOf c (headerFields hd)).toNat ++ uintBytes 2 hd.payloadChecksum.toNat

/-- `FromFields(version, operation, tag, payload)` (R82); outside its domain the call is refused (R87, log entry 22). The headerChecksum is `unset`, a
free value (log entry 9). -/
def fromFields (c : Config) (version operation tag : Nat) (payload : List Byte) : Except DomainError Packet :=
  if version ≥ 2 ^ 32 then .error .versionTooWide
  else if operation ≥ 2 ^ 16 then .error .operationTooWide
  else if tag ≥ 2 ^ 16 then .error .tagTooWide
  else if payload.length > 2 ^ 32 - 1 then .error .payloadTooLong
  else .ok {
    header := {
      version := BitVec.ofNat 32 version
      operation := BitVec.ofNat 16 operation
      tag := BitVec.ofNat 16 tag
      payloadLength := BitVec.ofNat 32 payload.length
      headerChecksum := Config.unsetHeaderChecksum version operation tag payload
      payloadChecksum := csumOf c payload }
    payload := payload }

/-- `ToBytes(p)` (R83). -/
def toBytes (c : Config) (p : Packet) : List Byte := encodeHeader c p.header ++ p.payload

/-- `ValidFrame(f)` (R85). -/
def validFrame (c : Config) (f : List Byte) : Bool :=
  let hd := decodeHeader (slice f 0 16)
  16 ≤ f.length && validateHeaderChecksum c (slice f 0 16) && hd.payloadLength.toNat ≤ c.maxPayload &&
    f.length == 16 + hd.payloadLength.toNat && csumOf c (f.drop 16) == hd.payloadChecksum

/-- The packet the receiver delivers for an aligned valid frame (42_unpacker.md R100). -/
def framePacket (f : List Byte) : Packet := fromWire (decodeHeader (slice f 0 16)) (f.drop 16)

end Sys2Proof.Machine
end

