-- ==== Sys2Proof/Machine/Frx.lean ====
section
/-! DEFINITION. The meanings of the FRX commands (42_unpacker.md R89 to R97). Neither touches CSUM (10_state.md R15). -/

namespace Sys2Proof.Machine

/-- Steps 2 to 4, when `rx_buf` holds a whole header (R91, R92, R93): the header checksum is tested before the length bound (60_exceptions.md
R112), and a header with an empty payload is settled at once. -/
def headerComplete (c : Config) (s : State) : State :=
  let hd := decodeHeader s.rxBuf
  if !validateHeaderChecksum c s.rxBuf then s.discard .hdrCsum Config.headerSize
  else if oversized c hd then s.discard .oversize Config.headerSize
  else if hd.payloadLength = 0 then
    if payloadChecksumOk c hd [] then s.deliver (fromWire hd []) else s.discard .payloadCsum Config.headerSize
  else s.bufClear.setPend (some hd)

/-- Step 6, when `rx_buf` holds the whole payload (R95). The header is not checked again. -/
def payloadComplete (c : Config) (hd : Header) (s : State) : State :=
  if payloadChecksumOk c hd s.rxBuf then s.deliver (fromWire hd s.rxBuf)
  else s.discard .payloadCsum (Config.headerSize + s.rxBuf.length)

/-- The effect of RX.BYTE b (R89): the byte is buffered first, then the step of the FSM (R88) is taken. -/
def rxByteEffect (c : Config) (b : Byte) (s : State) : State :=
  let s := s.bufAppend b
  match s.rxPend with
  | none => if s.rxBuf.length < Config.headerSize then s else headerComplete c s
  | some hd => if s.rxBuf.length < hd.payloadLength.toNat then s else payloadComplete c hd s

/-- RX.RESET (R97): deliveries and discards are kept, and no discard is recorded. -/
def execRxReset (s : State) : Host.Outcome State Fault Refusal := command .rxReset State.frxClear s

/-- RX.BYTE b (R89). -/
def execRxByte (b : Byte) (s : State) : Host.Outcome State Fault Refusal :=
  command (.rxByte b) (rxByteEffect Config.block b) s

end Sys2Proof.Machine
end

