-- ==== Sys2Proof/Machine/Dispatch.lean ====
section
/-! DEFINITION. One arm per command of the opcode table (30_encoding.md R57). -/

namespace Sys2Proof.Machine

def exec (i : Instr) (s : State) : Host.Outcome State Fault Refusal :=
  match i with
  | .nop => Sys2Proof.Machine.execNop s
  | .csReset => Sys2Proof.Machine.execCsReset s
  | .csUpdate b => Sys2Proof.Machine.execCsUpdate b s
  | .csRead => Sys2Proof.Machine.execCsRead s
  | .rxReset => Sys2Proof.Machine.execRxReset s
  | .rxByte b => Sys2Proof.Machine.execRxByte b s

end Sys2Proof.Machine
end

