-- ==== Sys2Proof/Machine/Port.lean ====
section
/-! DEFINITION. The command port: `rst`, issuing a command word, and what is refused there (60_exceptions.md R118, R119; 70_reset_and_hazards.md
R126, R127, R132, R133). -/

namespace Sys2Proof.Machine

/-- Nothing on the inputs in this step. -/
def HostEvent.idle : HostEvent := { rst := false, issue := none }

/-- `rst` asserted, no command. -/
def HostEvent.reset : HostEvent := { rst := true, issue := none }

/-- One command word, issued as R132 asks. -/
def HostEvent.command (cw : CmdWord) : HostEvent :=
  { rst := false, issue := some { word := cw, overlapping := [], fromConsumer := [] } }

/-- A reserved word (30_encoding.md R59): it sets `refused` and changes no other state. Before the first reset it faults as any command
does (10_state.md R32, log entry 4). -/
def refuseReserved (cw : CmdWord) (s : State) : State :=
  if s.poweredUp then s.raiseRefusal (.reserved cw) else s.raiseFault (.notReset cw)

/-- The command word `cw` is taken: the decoded command's own effect, or the refusal of a reserved word. -/
def runWord (cw : CmdWord) (s : State) : Host.Outcome State Fault Refusal :=
  match decode cw with
  | .instr i => exec i s
  | .reserved _ => .next (refuseReserved cw s)

/-- The words issued while a command is in progress are refused as Overlap and do nothing else (R112, R119, R132, log entry 5); before
the first reset they fault (R118). -/
def refuseOverlapping (cws : List CmdWord) (s : State) : State :=
  if s.poweredUp then { s with refused := s.refused ++ cws.map fun _ => .overlap }
  else { s with fault := s.fault ++ cws.map .notReset }

/-- The words the consumer issues from inside a delivery are refused as Reentrant and do nothing else (R119, R133, log entry 6). -/
def refuseReentrant (cws : List CmdWord) (s : State) : State := { s with refused := s.refused ++ cws.map fun _ => .reentrant }

/-- The step from `s` to `t` made a delivery. -/
def delivered (s t : State) : Bool := s.deliveries.length < t.deliveries.length

/-- One command issued at the port: its effect, then the refusals of what was issued against R132 and R133 while it was in progress.
DESIGN CHOICE (log entry 23): a reserved word is in progress while it is refused, so a word that overlaps it is refused as Overlap; and in one
step every Overlap is recorded before every Reentrant. -/
def takeIssue (q : Issue) (s : State) : Host.Outcome State Fault Refusal :=
  match runWord q.word s with
  | .next t =>
    let u := refuseOverlapping q.overlapping t
    .next (if delivered s t then refuseReentrant q.fromConsumer u else u)
  | .fault r => .fault r
  | .refused r => .refused r

/-- One step's inputs. `rst` wins: a command issued in the same step has no effect (R127, log entry 7). With neither, the block holds
its state (60_exceptions.md R125). -/
def takeEvent (e : HostEvent) (s : State) : Host.Outcome State Fault Refusal :=
  if e.rst then .next s.assertRst
  else
    match e.issue with
    | none => .next s
    | some q => takeIssue q s

/-- The next port event leaves the queue and takes effect; while the host issues nothing the block holds its state (R125, log entry 14). -/
def portStep (s : State) : Host.Outcome State Fault Refusal :=
  configured Config.block
    (match s.port with
     | [] => .next s
     | e :: rest => takeEvent e { s with port := rest })

/-- `s` with the host's next event put in front of the others. -/
def State.issueFirst (s : State) (e : HostEvent) : State := { s with port := e :: s.port }

end Sys2Proof.Machine
end

