-- ==== Sys2Proof/Machine/Step.lean ====
section
/-! DEFINITION. One step of the block (00_scope.md R13). -/

namespace Sys2Proof.Machine

/-- One step: one command, or one assertion of reset (R13). -/
def step (s : State) : Host.Outcome State Fault Refusal := portStep s

/-- `s` with the command word of bits `w` as the host's next event, so that the next step runs it (log entries 1, 15). -/
def State.withFetchWord (s : State) (_nbits w : Nat) : State := s.issueFirst (.command (BitVec.ofNat 12 w))

end Sys2Proof.Machine
end

