-- ==== Sys2Proof/Machine/Assembler.lean ====
section
/-! DEFINITION. The assembler's source syntax (30_encoding.md R62): one command per line, `MNEMONIC [operand]`, comments from `;`. A line is
a list of characters. Conventions R62 leaves open are in log entry 12. -/

namespace Sys2Proof.Machine

/-- Why a line is rejected (R62). -/
inductive AsmError where
  | unknownMnemonic
  | operandAbove255
  | operandOnCwN
  | missingOperand
  /-- Neither `0xHH` nor a decimal. -/
  | malformedOperand
  /-- More than one operand. -/
  | extraOperand
deriving DecidableEq, Repr

/-- The value of a digit, upper or lower case. -/
def digitValue (ch : Char) : Option Nat :=
  let n := ch.toNat
  if 48 ≤ n ∧ n ≤ 57 then some (n - 48)
  else if 65 ≤ n ∧ n ≤ 70 then some (n - 55)
  else if 97 ≤ n ∧ n ≤ 102 then some (n - 87)
  else none

/-- A number in the given base, continuing from `acc`; none at a character that is no digit of the base. -/
def readDigits (base : Nat) : Nat → List Char → Option Nat
  | acc, [] => some acc
  | acc, ch :: cs =>
    match digitValue ch with
    | some d => if d < base then readDigits base (base * acc + d) cs else none
    | none => none

/-- A byte operand: `0xHH`, or a decimal from 0 to 255 (R62). -/
def readOperand (w : List Char) : Except AsmError Byte :=
  match w with
  | '0' :: 'x' :: hex =>
    match hex, readDigits 16 0 hex with
    | [], _ | _, none => .error .malformedOperand
    | _, some v =>
      if v > 255 then .error .operandAbove255
      else if hex.length = 2 then .ok (BitVec.ofNat 8 v)
      else .error .malformedOperand
  | _ =>
    match readDigits 10 0 w with
    | some v => if v > 255 then .error .operandAbove255 else .ok (BitVec.ofNat 8 v)
    | none => .error .malformedOperand

/-- The line without its comment (R62). -/
def stripComment (line : List Char) : List Char := line.takeWhile (· ≠ ';')

/-- Split at spaces and tabs; `w` is the word being read, in reverse. -/
def splitWords : List Char → List Char → List (List Char)
  | w, [] => if w.isEmpty then [] else [w.reverse]
  | w, ch :: cs =>
    if ch = ' ' ∨ ch = '\t' then (if w.isEmpty then splitWords [] cs else w.reverse :: splitWords [] cs)
    else splitWords (ch :: w) cs

/-- The words of a line. -/
def lineWords (line : List Char) : List (List Char) := splitWords [] (stripComment line)

/-- What a mnemonic stands for: a command of format CW-N, or of format CW-B awaiting its byte (R57). -/
inductive Mnemonic where
  | cwN (i : Instr)
  | cwB (i : Byte → Instr)

/-- The mnemonics, in upper case (R62). -/
def readMnemonic (w : List Char) : Option Mnemonic :=
  if w = ['N', 'O', 'P'] then some (.cwN .nop)
  else if w = ['C', 'S', '.', 'R', 'E', 'S', 'E', 'T'] then some (.cwN .csReset)
  else if w = ['C', 'S', '.', 'U', 'P', 'D', 'A', 'T', 'E'] then some (.cwB .csUpdate)
  else if w = ['C', 'S', '.', 'R', 'E', 'A', 'D'] then some (.cwN .csRead)
  else if w = ['R', 'X', '.', 'R', 'E', 'S', 'E', 'T'] then some (.cwN .rxReset)
  else if w = ['R', 'X', '.', 'B', 'Y', 'T', 'E'] then some (.cwB .rxByte)
  else none

/-- The command word of one line; none for a line with no command (R62). -/
def assembleLine (line : List Char) : Except AsmError (Option CmdWord) :=
  match lineWords line with
  | [] => .ok none
  | m :: operands =>
    match readMnemonic m, operands with
    | none, _ => .error .unknownMnemonic
    | some (.cwN i), [] => .ok (some (encode i))
    | some (.cwN _), _ :: _ => .error .operandOnCwN
    | some (.cwB _), [] => .error .missingOperand
    | some (.cwB i), [w] =>
      match readOperand w with
      | .ok b => .ok (some (encode (i b)))
      | .error e => .error e
    | some (.cwB _), _ :: _ :: _ => .error .extraOperand

/-- A hexadecimal digit, upper case. -/
def hexDigit (n : Nat) : Char := if n < 10 then Char.ofNat (48 + n) else Char.ofNat (55 + n)

/-- A byte as `0xHH`. -/
def byteText (b : Byte) : List Char := ['0', 'x', hexDigit (b.toNat / 16), hexDigit (b.toNat % 16)]

/-- The source line of a command (R62). -/
def instrText : Instr → List Char
  | .nop => ['N', 'O', 'P']
  | .csReset => ['C', 'S', '.', 'R', 'E', 'S', 'E', 'T']
  | .csUpdate b => ['C', 'S', '.', 'U', 'P', 'D', 'A', 'T', 'E', ' '] ++ byteText b
  | .csRead => ['C', 'S', '.', 'R', 'E', 'A', 'D']
  | .rxReset => ['R', 'X', '.', 'R', 'E', 'S', 'E', 'T']
  | .rxByte b => ['R', 'X', '.', 'B', 'Y', 'T', 'E', ' '] ++ byteText b

/-- A program: its lines in order, each assembled, lines with no command left out; the first rejected line rejects it (R62). -/
def assemble : List (List Char) → Except AsmError (List CmdWord)
  | [] => .ok []
  | line :: lines =>
    match assembleLine line, assemble lines with
    | .error e, _ => .error e
    | .ok _, .error e => .error e
    | .ok none, .ok ws => .ok ws
    | .ok (some w), .ok ws => .ok (w :: ws)

end Sys2Proof.Machine
end

