-- ==== Sys2Proof/Machine/Incremental.lean ====
section
/-! DEFINITION. The other design 42_unpacker.md R105 allows: FRX with running checksum accumulators and an explicit state bit (10_state.md
R22), holding the header as one 128-bit number (30_encoding.md R52) in place of its raw bytes. It is not architectural state; a statement says
that it delivers what RX.BYTE delivers. Log entry 20. -/

namespace Sys2Proof.Machine

/-- The state of the incremental receiver. -/
structure IncFrx where
  /-- The explicit state bit: a header has been accepted and its payload is awaited (R22). -/
  awaitingPayload : Bool
  /-- The header bytes so far, byte 0 in the highest place once there are 16 (R52). -/
  headerBits : BitVec 128
  /-- How many header bytes have arrived. -/
  headerCount : Nat
  /-- The header accumulator, over header bytes 0 to 11 (R105). -/
  headerAcc : Half × Byte
  /-- The payload bytes stored so far. -/
  payload : List Byte
  /-- The payload accumulator (R105). -/
  payloadAcc : Half × Byte
  deliveries : List Packet
deriving DecidableEq, Repr

/-- The incremental receiver at a header start, with the deliveries so far. -/
def IncFrx.atHeaderStart (ds : List Packet) : IncFrx where
  awaitingPayload := false
  headerBits := 0
  headerCount := 0
  headerAcc := (0x0000, 0x00)
  payload := []
  payloadAcc := (0x0000, 0x00)
  deliveries := ds

/-- The six fields of the 128-bit header number H (R52). -/
def headerOfBits (h : BitVec 128) : Header where
  version := h.extractLsb' 96 32
  operation := h.extractLsb' 80 16
  tag := h.extractLsb' 64 16
  payloadLength := h.extractLsb' 32 32
  headerChecksum := h.extractLsb' 16 16
  payloadChecksum := h.extractLsb' 0 16

/-- One stream byte into the incremental receiver (R105). -/
def incByte (c : Config) (b : Byte) (s : IncFrx) : IncFrx :=
  if s.awaitingPayload then
    let hd := headerOfBits s.headerBits
    let payload := s.payload ++ [b]
    let acc := csumStep c s.payloadAcc.1 s.payloadAcc.2 b
    if payload.length < hd.payloadLength.toNat then { s with payload := payload, payloadAcc := acc }
    else if swap16 acc.1 = hd.payloadChecksum then .atHeaderStart (s.deliveries ++ [fromWire hd payload])
    else .atHeaderStart s.deliveries
  else
    let bits := s.headerBits <<< 8 ||| b.setWidth 128
    let acc := if s.headerCount < 12 then csumStep c s.headerAcc.1 s.headerAcc.2 b else s.headerAcc
    let hd := headerOfBits bits
    if s.headerCount + 1 < Config.headerSize then
      { s with headerBits := bits, headerCount := s.headerCount + 1, headerAcc := acc }
    else if swap16 acc.1 ≠ hd.headerChecksum ∨ oversized c hd then .atHeaderStart s.deliveries
    else if hd.payloadLength = 0 then
      if hd.payloadChecksum = 0 then .atHeaderStart (s.deliveries ++ [fromWire hd []]) else .atHeaderStart s.deliveries
    else { IncFrx.atHeaderStart s.deliveries with awaitingPayload := true, headerBits := bits }

/-- A stream of bytes into the incremental receiver. -/
def incFeed (c : Config) (bs : List Byte) (s : IncFrx) : IncFrx := bs.foldl (fun s b => incByte c b s) s

end Sys2Proof.Machine
end

