-- ==== Sys2Proof/Machine/Pseudo.lean ====
section
/-! DEFINITION. Command sequences and the pseudo-instructions (30_encoding.md R63, 42_unpacker.md R98). -/

namespace Sys2Proof.Machine

/-- A sequence of commands, each after the one before it has finished (20_memory.md R45). -/
def runInstrs : List Instr → State → Host.Outcome State Fault Refusal
  | [], s => .next s
  | i :: is, s =>
    match exec i s with
    | .next t => runInstrs is t
    | .fault r => .fault r
    | .refused r => .refused r

/-- `CS.UPDSEQ s` (R63): the source's update(sequence). -/
def csUpdseq (s : List Byte) : List Instr := s.map .csUpdate

/-- `RX.FEED c` (R63, R98): the source's feed(bytes). -/
def rxFeed (c : List Byte) : List Instr := c.map .rxByte

/-- What a pseudo-op expands to (R63). RX.FRAME is refused outside the domain of FromFields (41_header_packet.md
R87), as that call is (log entry 22). -/
def expandPseudo (c : Config) : PseudoOp → Except DomainError (List Instr)
  | .csUpdseq s => .ok (csUpdseq s)
  | .csSum s => .ok (.csReset :: csUpdseq s ++ [.csRead])
  | .rxFeed bs => .ok (rxFeed bs)
  | .rxFrame v o t p =>
    match fromFields c v o t p with
    | .ok q => .ok (rxFeed (toBytes c q))
    | .error e => .error e

/-- The host's port events for a command sequence, one command a step (00_scope.md R13). -/
def commandEvents (is : List Instr) : List HostEvent := is.map fun i => .command (encode i)

/-- The receiver's next header start, counted from a header start at the head of the stream (42_unpacker.md R101): 16 bytes on when the
header is discarded or its payload is empty, and past the declared payload when it is accepted. -/
def nextHeaderStart (c : Config) (stream : List Byte) : Nat :=
  let h := slice stream 0 16
  let hd := decodeHeader h
  if validateHeaderChecksum c h && !oversized c hd then Config.headerSize + hd.payloadLength.toNat else Config.headerSize

end Sys2Proof.Machine
end

