-- ==== Sys2Proof/Machine/System.lean ====
section
/-! DEFINITION. Several blocks (10_state.md R33, 60_exceptions.md R123): each has its own state and its own command stream. -/

namespace Sys2Proof.Machine

/-- One step of block `k` of a system; with no block there nothing steps (log entry 17). -/
def stepBlock (k : Nat) (blocks : List State) : Host.Outcome (List State) Fault Refusal :=
  match blocks[k]? with
  | none => .next blocks
  | some s =>
    match step s with
    | .next t => .next (blocks.set k t)
    | .fault r => .fault r
    | .refused r => .refused r

end Sys2Proof.Machine
end

