-- ==== Sys2Proof/Safety.lean ====
section
/-! DEFINITION. What counts as a safe run, the states runs reach, and the invariants of the spec (10_state.md R19, R23, R30;
41_header_packet.md R81; 60_exceptions.md R108). -/

namespace Sys2Proof.Machine

/-- No fault and no refusal recorded: the premise of a claim about a run (R30). -/
def State.clean (s : State) : Prop := s.fault = [] ∧ s.refused = []

/-- A run of `k` steps that ends in a next state with no mark set. -/
def cleanRun (k : Nat) (s : State) : Prop := ∃ t, Sys2Proof.core.run k s = .next t ∧ State.clean t

/-- The states of runs from power-on or from reset, whatever the host issues: the host adds events at the end of its queue at any
time. -/
inductive Reachable : State → Prop where
  | powerOn : Reachable State.powerOn
  | reset : Reachable State.reset
  | hostIssues {s : State} (es : List HostEvent) : Reachable s → Reachable { s with port := s.port ++ es }
  | step {s t : State} : Reachable s → step s = .next t → Reachable t

/-- A header that the receiver holds or has delivered: in bound, with the header checksum recomputed from its fields (R21, R23). -/
def headerAccepted (c : Config) (hd : Header) : Prop :=
  hd.payloadLength.toNat ≤ c.maxPayload ∧ csumOf c (headerFields hd) = hd.headerChecksum

/-- The bounds of FRX between steps (R19, R23). -/
def frxInv (c : Config) (s : State) : Prop :=
  match s.rxPend with
  | none => s.rxBuf.length ≤ Config.headerSize - 1
  | some hd => headerAccepted c hd ∧ 1 ≤ hd.payloadLength.toNat ∧ s.rxBuf.length ≤ hd.payloadLength.toNat - 1

/-- A delivered packet: a payload of its header's length (R81), both checksums right (R21, R85). -/
def packetDelivered (c : Config) (p : Packet) : Prop :=
  headerAccepted c p.header ∧ p.wf = true ∧ csumOf c p.payload = p.header.payloadChecksum

/-- A discard record drops as many bytes as R108 says. -/
def discardSized (c : Config) (d : Discard) : Prop :=
  match d.reason with
  | .hdrCsum | .oversize => d.bytes = 16
  | .payloadCsum => 16 ≤ d.bytes ∧ d.bytes ≤ 16 + c.maxPayload

/-- The invariant of a block that has been reset. Before the first reset the registers hold any value (R32). -/
def State.Inv (s : State) : Prop :=
  s.poweredUp = true →
    frxInv Config.block s ∧ (∀ p ∈ s.deliveries, packetDelivered Config.block p) ∧ ∀ d ∈ s.discards, discardSized Config.block d

/-- The commands of FRX, op[3] = 1 (30_encoding.md R57). -/
def frxCommand : Instr → Bool
  | .rxReset | .rxByte _ => true
  | .nop | .csReset | .csUpdate _ | .csRead => false

/-- The commands of CSUM (30_encoding.md R57). -/
def csumCommand : Instr → Bool
  | .csReset | .csUpdate _ | .csRead => true
  | .nop | .rxReset | .rxByte _ => false

/-- What belongs to FRX: its registers and the outcomes of its steps (10_state.md R15, R27). -/
def State.frxPart (s : State) : List Byte × Option Header × List Packet × List Discard := (s.rxBuf, s.rxPend, s.deliveries, s.discards)

/-- What belongs to CSUM: its registers and the values it has returned (10_state.md R15, R26). -/
def State.csumPart (s : State) : Half × Byte × List Half := (s.csValue, s.csPrev, s.results)

/-- FRX stands at a header start: AwaitingHeader with an empty buffer, in a block that has been reset (42_unpacker.md R100, R101). -/
def State.atHeaderStart (s : State) : Prop := s.poweredUp = true ∧ s.rxPend = none ∧ s.rxBuf = []

/-- The step from `s` to `t` sets the `fault` mark with this reason and changes no other state (60_exceptions.md R118). -/
def onlyFaults (s t : State) (f : Fault) : Prop := f ∈ t.fault ∧ { t with fault := s.fault } = s

/-- The step from `s` to `t` sets the `refused` mark with this reason and changes no other state (30_encoding.md R59). -/
def onlyRefuses (s t : State) (r : Refusal) : Prop := r ∈ t.refused ∧ { t with refused := s.refused } = s

/-- The sequence with bit `j` of byte `i` flipped (40_checksum.md R76, 42_unpacker.md R106). -/
def flipBit (s : List Byte) (i j : Nat) : List Byte := s.modify i fun b => b ^^^ BitVec.twoPow 8 j

end Sys2Proof.Machine
end

