-- ==== Sys2Proof/Certificates/Slice0/Obligations.lean ====
section
/-! DEFINITION. The statements for the provers. `Config.block` is the block's configuration; byte `k` of a list is read with `getD k 0`. -/

open Sys2Proof Sys2Proof.Machine

/-! ## Encoding -/

/-- Command words written out from the encodings of 30_encoding.md R58 (95_test_vectors.md E1 to E10). -/
def Obligations.SampleWordsDecode : Prop :=
  decode 0b000000000000 = .instr .nop ∧ decode 0b000100000000 = .instr .csReset ∧
  decode 0b001010100101 = .instr (.csUpdate 0xA5) ∧ decode 0b001100000000 = .instr .csRead ∧
  decode 0b100000000000 = .instr .rxReset ∧ decode 0b100111111111 = .instr (.rxByte 0xFF) ∧
  decode 0x101 = .reserved 0x101 ∧ decode 0x001 = .reserved 0x001 ∧ decode 0x401 = .reserved 0x401 ∧
  decode 0x7FF = .reserved 0x7FF ∧ decode 0xA00 = .reserved 0xA00 ∧ decode 0xFFF = .reserved 0xFFF ∧ decode 0x801 = .reserved 0x801

/-- R58: a word is a command exactly when it agrees with the command's match in every bit of its mask, and a `b` field is the operand.
R60: every word decodes to one of the six operations or to Reserved of itself, and no word agrees with two rows. -/
def Obligations.DecodeFollowsTable : Prop :=
  (∀ cw : CmdWord,
    (decode cw = .instr .nop ↔ cw &&& 0xFFF = 0x000) ∧ (decode cw = .instr .csReset ↔ cw &&& 0xFFF = 0x100) ∧
    (∀ b, decode cw = .instr (.csUpdate b) ↔ cw &&& 0xF00 = 0x200 ∧ cw.extractLsb 7 0 = b) ∧
    (decode cw = .instr .csRead ↔ cw &&& 0xFFF = 0x300) ∧ (decode cw = .instr .rxReset ↔ cw &&& 0xFFF = 0x800) ∧
    (∀ b, decode cw = .instr (.rxByte b) ↔ cw &&& 0xF00 = 0x900 ∧ cw.extractLsb 7 0 = b) ∧
    ((∃ i, decode cw = .instr i) ∨ decode cw = .reserved cw)) ∧
  (opcodeTable.map fun r => (r.mnemonic, r.pattern, r.mask)) =
    [("NOP", 0x000, 0xFFF), ("CS.RESET", 0x100, 0xFFF), ("CS.UPDATE", 0x200, 0xF00), ("CS.READ", 0x300, 0xFFF),
      ("RX.RESET", 0x800, 0xFFF), ("RX.BYTE", 0x900, 0xF00)] ∧
  opcodeTable.Pairwise fun r r' => ∀ cw, ¬(r.matches cw = true ∧ r'.matches cw = true)

/-- Decode and encode agree, both ways. -/
def Obligations.DecodeEncodeRoundTrip : Prop :=
  (∀ i : Instr, i.wf = true → decode (encode i) = .instr i) ∧ ∀ cw i, decode cw = .instr i → encode i = cw

/-- R59: which words are reserved, how many there are, and that one sets the refused mark and changes no other state. -/
def Obligations.ReservedWordsAreRefused : Prop :=
  (∀ cw, decode cw = .reserved cw ↔
    let op := cw.toNat / 256
    let data := cw.toNat % 256
    (4 ≤ op ∧ op ≤ 7) ∨ (10 ≤ op ∧ op ≤ 15) ∨ ((op = 0 ∨ op = 1 ∨ op = 3 ∨ op = 8) ∧ data ≠ 0)) ∧
  (List.range 4096).countP (fun n => (decodeTableWord 12 n).isSome) = 516 ∧
  (List.range 4096).countP (fun n => (decodeTableWord 12 n).isNone) = 3580 ∧
  ∀ cw s, decode cw = .reserved cw → s.poweredUp = true → ∃ t, runWord cw s = .next t ∧ onlyRefuses s t (.reserved cw)

/-- R49: DecodeUint is the big-endian sum over the first w bytes. -/
def Obligations.DecodeUintIsBigEndianSum : Prop :=
  ∀ (s : List Byte) (w : Nat), w ≤ s.length →
    decodeUint s w = ((List.range w).map fun i => (s.getD i 0).toNat * 256 ^ (w - 1 - i)).sum ∧ decodeUint s w < 2 ^ (8 * w)

/-- R50: EncodeUint gives the w bytes most significant first, is the inverse of DecodeUint, and refuses a value that does not fit.
The refusal is R87's, and its form and reason are log entry 22. -/
def Obligations.EncodeUintInvertsDecodeUint : Prop :=
  ∀ v w : Nat,
    (v < 2 ^ (8 * w) → ∃ bs, encodeUint v w = .ok bs ∧ bs.length = w ∧ decodeUint bs w = v ∧
      ∀ i, i < w → (bs.getD i 0).toNat = v / 2 ^ (8 * (w - 1 - i)) % 256) ∧
    (2 ^ (8 * w) ≤ v → encodeUint v w = .error .valueTooWide)

/-- R52: the header fields are these bits of the header read as one 128-bit number, and byte k is bits 127-8k to 120-8k. -/
def Obligations.HeaderBitPositions : Prop :=
  ∀ h : List Byte, h.length = 16 →
    let H := BitVec.ofNat 128 (decodeUint h 16)
    (decodeHeader h).version = H.extractLsb 127 96 ∧ (decodeHeader h).operation = H.extractLsb 95 80 ∧
    (decodeHeader h).tag = H.extractLsb 79 64 ∧ (decodeHeader h).payloadLength = H.extractLsb 63 32 ∧
    (decodeHeader h).headerChecksum = H.extractLsb 31 16 ∧ (decodeHeader h).payloadChecksum = H.extractLsb 15 0 ∧
    ∀ k, k < 16 → h.getD k 0 = H.extractLsb' (120 - 8 * k) 8

/-- R62: a command's own line, with the operand in hexadecimal or in decimal, assembles to `(op << 8) | data`, and a program to its
commands in order; a comment changes nothing; and the four rejections. -/
def Obligations.AssemblerFollowsSyntax : Prop :=
  (∀ is : List Instr, assemble (is.map instrText) = .ok (is.map encode)) ∧
  (∀ i : Instr, assembleLine (instrText i) = .ok (some (encode i))) ∧
  (∀ b : Byte, assembleLine ("CS.UPDATE ".toList ++ Nat.toDigits 10 b.toNat) = .ok (some (commandWord 0x2 b)) ∧
    assembleLine ("RX.BYTE ".toList ++ Nat.toDigits 10 b.toNat) = .ok (some (commandWord 0x9 b))) ∧
  (∀ line comment, assembleLine (line ++ ';' :: comment) = assembleLine line) ∧
  assembleLine [] = .ok none ∧
  (∀ m ∈ ["NOP", "CS.RESET", "CS.READ", "RX.RESET"], ∀ b : Byte,
    assembleLine (m.toList ++ ' ' :: byteText b) = .error .operandOnCwN) ∧
  (∀ m ∈ ["CS.UPDATE", "RX.BYTE"], assembleLine m.toList = .error .missingOperand ∧
    ∀ n, 255 < n → assembleLine (m.toList ++ ' ' :: Nat.toDigits 10 n) = .error .operandAbove255) ∧
  ∀ m ∈ ["nop", "RX", "RX.BYTE5", "0x905"], assembleLine m.toList = .error .unknownMnemonic

/-! ## CSUM -/

/-- R64 and R67: CS.UPDATE shifts the 16-bit state, applies 0x8005 when bit 15 was set, and XORs in the previous byte (high) and the
current byte (low); nothing else changes. Before the first reset it faults. -/
def Obligations.CsUpdateFoldsOneByte : Prop :=
  ∀ (b : Byte) (s : State),
    encode (.csUpdate b) = 0x200 ||| b.setWidth 12 ∧
    (s.poweredUp = true →
      let v := s.csValue.toNat
      let shifted := 2 * v % 65536
      let t := if 32768 ≤ v then shifted ^^^ 0x8005 else shifted
      exec (.csUpdate b) s =
        .next { s with csValue := BitVec.ofNat 16 (t ^^^ (256 * s.csPrev.toNat + b.toNat)), csPrev := b }) ∧
    (s.poweredUp = false →
      ∃ t, exec (.csUpdate b) s = .next t ∧ onlyFaults s t (.notReset (0x200 ||| b.setWidth 12)))

/-- R66: CS.RESET clears the accumulator and nothing else, is idempotent, and CS.READ after it returns 0 (`results`, the model's record of
`rd`, is log entry 2). Before the first reset it faults. -/
def Obligations.CsResetClearsAccumulator : Prop :=
  encode .csReset = 0x100 ∧ ∀ s : State,
    (s.poweredUp = true →
      exec .csReset s = .next { s with csValue := 0, csPrev := 0 } ∧
      runInstrs [.csReset, .csReset] s = exec .csReset s ∧
      runInstrs [.csReset, .csRead] s = .next { s with csValue := 0, csPrev := 0, results := s.results ++ [0] }) ∧
    (s.poweredUp = false → ∃ t, exec .csReset s = .next t ∧ onlyFaults s t (.notReset 0x100))

/-- R68 and R61: CS.READ returns the state with its bytes exchanged and writes no register; a second read returns the same (`results`,
the model's record of `rd`, is log entry 2). Before the first reset it faults. -/
def Obligations.CsReadReturnsSwappedState : Prop :=
  encode .csRead = 0x300 ∧ ∀ s : State,
    let rd := BitVec.ofNat 16 (256 * (s.csValue.toNat % 256) + s.csValue.toNat / 256)
    (s.poweredUp = true →
      exec .csRead s = .next { s with results := s.results ++ [rd] } ∧
      runInstrs [.csRead, .csRead] s = .next { s with results := s.results ++ [rd, rd] }) ∧
    (s.poweredUp = false → ∃ t, exec .csRead s = .next t ∧ onlyFaults s t (.notReset 0x300))

/-- R72: NOP does nothing. Before the first reset it faults. -/
def Obligations.NopDoesNothing : Prop :=
  encode .nop = 0x000 ∧ ∀ s : State,
    (s.poweredUp = true → exec .nop s = .next s) ∧
    (s.poweredUp = false → ∃ t, exec .nop s = .next t ∧ onlyFaults s t (.notReset 0x000))

/-- R61: the continuous output, where a build drives it, shows the value CS.READ returns in that state. -/
def Obligations.ContinuousOutputShowsReadValue : Prop :=
  ∀ s : State, s.poweredUp = true →
    s.csValueO = none ∨ ∃ v, s.csValueO = some v ∧ exec .csRead s = .next { s with results := s.results ++ [v] }

/-- R18: `cs_prev` never shows in CS.READ, and always shows in the accumulator after one more CS.UPDATE. -/
def Obligations.PreviousByteIsHidden : Prop :=
  ∀ (s : State) (p b : Byte), s.poweredUp = true → p ≠ s.csPrev →
    ∃ t t' u u', exec .csRead s = .next t ∧ exec .csRead { s with csPrev := p } = .next t' ∧ t.results = t'.results ∧
      exec (.csUpdate b) s = .next u ∧ exec (.csUpdate b) { s with csPrev := p } = .next u' ∧ u.csValue ≠ u'.csValue

/-- R63 and R69: CS.SUM returns CsumOf of its bytes from any state of the block, and leaves the fold of a fresh accumulator. -/
def Obligations.CsSumReturnsCsumOf : Prop :=
  ∀ (bs : List Byte) (s : State), s.poweredUp = true →
    ∃ is, expandPseudo Config.block (.csSum bs) = .ok is ∧
      runInstrs is s = .next { s with
        csValue := (csumFold Config.block bs).1
        csPrev := bs.getLastD 0
        results := s.results ++ [csumOf Config.block bs] }

/-- R65: a wider register gives the same low 16 bits, over any sequence of updates. -/
def Obligations.WiderRegisterReadsSame : Prop :=
  ∀ (c : Config) (n : Nat) (s : List Byte) (v : BitVec n) (p : Byte), 16 ≤ n →
    let r := s.foldl (fun a b => csumStepWide c n a.1 a.2 b) (v, p)
    (r.1.setWidth 16, r.2) = csumFoldFrom c (v.setWidth 16, p) s

/-- R71: the order of two different bytes always shows; the closed form for two bytes, and the bijection. -/
def Obligations.TwoByteOrderShows : Prop :=
  (∀ a b : Byte,
    (csumFold Config.block [a, b]).1 = (a ++ b) ^^^ (a.setWidth 16 <<< 1) ∧
    (a ≠ b → csumOf Config.block [a, b] ≠ csumOf Config.block [b, a]) ∧
    ∀ a' b' : Byte, csumOf Config.block [a, b] = csumOf Config.block [a', b'] → a = a' ∧ b = b') ∧
  csumOf Config.block [0x01, 0x02] = 0x0001 ∧ csumOf Config.block [0x02, 0x01] = 0x0502

/-- R73: the checksum of the empty sequence and of a single byte. R74: leading zero bytes are invisible; a trailing one need not be. -/
def Obligations.ShortAndZeroSequences : Prop :=
  ∀ c : Config,
    csumOf c [] = 0x0000 ∧ (∀ b : Byte, csumFold c [b] = (b.setWidth 16, b) ∧ csumOf c [b] = b ++ (0x00 : Byte)) ∧
    (∀ hd : Header, payloadChecksumOk c hd [] = true ↔ hd.payloadChecksum = 0x0000) ∧
    csumStep c 0x0000 0x00 0x00 = (0x0000, 0x00) ∧
    (∀ (k : Nat) (s : List Byte), csumOf c (List.replicate k 0 ++ s) = csumOf c s) ∧
    (∀ k : Nat, csumOf c (List.replicate k 0) = 0x0000) ∧
    csumOf c [0x01, 0x00] = 0x0201 ∧ csumOf c [0x01] = 0x0100

/-- R75: the checksum is linear over GF(2) on sequences of equal length. -/
def Obligations.ChecksumIsLinear : Prop :=
  ∀ (c : Config) (s t : List Byte), s.length = t.length →
    csumOf c (List.zipWith (· ^^^ ·) s t) = csumOf c s ^^^ csumOf c t

/-- R76: every single-bit error changes the checksum; two different sequences can share one. -/
def Obligations.SingleBitErrorsDetected : Prop :=
  (∀ (s : List Byte) (i j : Nat), i < s.length → j < 8 → csumOf Config.block (flipBit s i j) ≠ csumOf Config.block s) ∧
  csumOf Config.block [0x01, 0x06, 0x00] = csumOf Config.block [0x02, 0x00, 0x00]

/-! ## Headers and packets -/

/-- R78: what ValidateHeaderChecksum compares, byte by byte of the header. -/
def Obligations.HeaderCheckCoversTwelveBytes : Prop :=
  ∀ (c : Config) (h : List Byte), h.length = 16 →
    (validateHeaderChecksum c h = true ↔
      (csumOf c (h.take 12)).toNat = 256 * (h.getD 12 0).toNat + (h.getD 13 0).toNat) ∧
    validateHeaderChecksum c (List.replicate 16 0) = true

/-- R80: EncodeHeader writes a fresh header checksum, ignores the stored one, and undoes DecodeHeader but for it. -/
def Obligations.EncodeHeaderRecomputesChecksum : Prop :=
  ∀ (c : Config) (hd : Header),
    (encodeHeader c hd).length = 16 ∧ validateHeaderChecksum c (encodeHeader c hd) = true ∧
    decodeHeader (encodeHeader c hd) = { hd with headerChecksum := csumOf c (headerFields hd) } ∧
    (∀ x : Half, encodeHeader c { hd with headerChecksum := x } = encodeHeader c hd) ∧
    ∀ h : List Byte, h.length = 16 →
      encodeHeader c (decodeHeader h) = h.take 12 ++ uintBytes 2 (csumOf c (h.take 12)).toNat ++ h.drop 14

/-- R41: the first byte of a checksum field is the low byte of the accumulator state, the second its high byte; read as an integer the
field is what CS.READ returns. -/
def Obligations.ChecksumFieldsHoldSwappedState : Prop :=
  ∀ (c : Config) (v o t : Nat) (payload : List Byte) (p : Packet), fromFields c v o t payload = .ok p →
    let f := toBytes c p
    let sHdr := (csumFold c (f.take 12)).1
    let sPay := (csumFold c payload).1
    f.getD 12 0 = sHdr.extractLsb 7 0 ∧ f.getD 13 0 = sHdr.extractLsb 15 8 ∧
    f.getD 14 0 = sPay.extractLsb 7 0 ∧ f.getD 15 0 = sPay.extractLsb 15 8 ∧
    BitVec.ofNat 16 (decodeUint (slice f 12 14) 2) = swap16 sHdr ∧ BitVec.ofNat 16 (decodeUint (slice f 14 16) 2) = swap16 sPay

/-- R82, R83 and R87: what FromFields makes, the length of ToBytes, and the refusal of every call outside the domain.
The refusal is R87's, and that it is an error of the function and sets no mark is log entry 22. -/
def Obligations.FromFieldsDomain : Prop :=
  ∀ (c : Config) (v o t : Nat) (payload : List Byte),
    ((v < 2 ^ 32 ∧ o < 2 ^ 16 ∧ t < 2 ^ 16 ∧ payload.length ≤ 2 ^ 32 - 1) →
      ∃ p, fromFields c v o t payload = .ok p ∧ p.payload = payload ∧ p.wf = true ∧ p.header.version.toNat = v ∧
        p.header.operation.toNat = o ∧ p.header.tag.toNat = t ∧ p.header.payloadLength.toNat = payload.length ∧
        p.header.payloadChecksum = csumOf c payload ∧ (toBytes c p).length = 16 + payload.length ∧
        (toBytes c p).take 16 = encodeHeader c p.header ∧ (toBytes c p).drop 16 = payload) ∧
    (¬(v < 2 ^ 32 ∧ o < 2 ^ 16 ∧ t < 2 ^ 16 ∧ payload.length ≤ 2 ^ 32 - 1) → ∃ e, fromFields c v o t payload = .error e)

/-- R85: the frames of the send side are valid exactly up to the length bound. -/
def Obligations.SentFramesAreValid : Prop :=
  ∀ (v o t : Nat) (payload : List Byte) (p : Packet), fromFields Config.block v o t payload = .ok p →
    (validFrame Config.block (toBytes Config.block p) = true ↔ payload.length ≤ 4080)

/-! ## FRX, step by step -/

/-- R90 and R94: a byte that does not complete the header, or the payload, is only buffered. -/
def Obligations.RxByteBuffersIncompleteBytes : Prop :=
  ∀ (b : Byte) (s : State), s.poweredUp = true →
    (s.rxPend = none → s.rxBuf.length + 1 < 16 → exec (.rxByte b) s = .next { s with rxBuf := s.rxBuf ++ [b] }) ∧
    ∀ hd, s.rxPend = some hd → s.rxBuf.length + 1 < hd.payloadLength.toNat →
      exec (.rxByte b) s = .next { s with rxBuf := s.rxBuf ++ [b] }

/-- R91: the byte that completes a header discards it when the checksum fails, and otherwise when it declares
more than 4080 payload bytes; the buffer is cleared and nothing is delivered.
The recorded reasons, HDR_CSUM when both checks fail, and the byte counts are R108, R112 and log entry 21. -/
def Obligations.RxByteDiscardsBadHeader : Prop :=
  ∀ (b : Byte) (s : State), s.poweredUp = true → s.rxPend = none → s.rxBuf.length + 1 = 16 →
    let h := s.rxBuf ++ [b]
    let byte := fun k => (h.getD k 0).toNat
    let sumOk := (csumOf Config.block (h.take 12)).toNat = 256 * byte 12 + byte 13
    let len := 256 ^ 3 * byte 8 + 256 ^ 2 * byte 9 + 256 * byte 10 + byte 11
    (¬sumOk → exec (.rxByte b) s = .next { s with rxBuf := [], discards := s.discards ++ [⟨.hdrCsum, 16⟩] }) ∧
    (sumOk → 4080 < len → exec (.rxByte b) s = .next { s with rxBuf := [], discards := s.discards ++ [⟨.oversize, 16⟩] })

/-- R92: a header with both checks passed and an empty payload is delivered at once when its payloadChecksum is 0, and discarded
otherwise. -/
def Obligations.RxByteSettlesEmptyPayload : Prop :=
  ∀ (b : Byte) (s : State), s.poweredUp = true → s.rxPend = none → s.rxBuf.length + 1 = 16 →
    let h := s.rxBuf ++ [b]
    validateHeaderChecksum Config.block h = true → (decodeHeader h).payloadLength = 0 →
    ((decodeHeader h).payloadChecksum = 0x0000 →
      exec (.rxByte b) s = .next { s with rxBuf := [], deliveries := s.deliveries ++ [⟨decodeHeader h, []⟩] }) ∧
    ((decodeHeader h).payloadChecksum ≠ 0x0000 →
      exec (.rxByte b) s = .next { s with rxBuf := [], discards := s.discards ++ [⟨.payloadCsum, 16⟩] })

/-- R93: a header with both checks passed and 1 to 4080 payload bytes becomes the pending header. -/
def Obligations.RxByteAcceptsHeader : Prop :=
  ∀ (b : Byte) (s : State), s.poweredUp = true → s.rxPend = none → s.rxBuf.length + 1 = 16 →
    let h := s.rxBuf ++ [b]
    let len := (decodeHeader h).payloadLength.toNat
    validateHeaderChecksum Config.block h = true → 1 ≤ len → len ≤ 4080 →
    exec (.rxByte b) s = .next { s with rxBuf := [], rxPend := some (decodeHeader h) }

/-- R95: the byte that completes the payload delivers the packet when the payload checksum holds, and discards it otherwise; FRX
returns to AwaitingHeader with an empty buffer either way. -/
def Obligations.RxByteCompletesPayload : Prop :=
  ∀ (b : Byte) (s : State) (hd : Header), s.poweredUp = true → s.rxPend = some hd →
    s.rxBuf.length + 1 = hd.payloadLength.toNat →
    let payload := s.rxBuf ++ [b]
    (csumOf Config.block payload = hd.payloadChecksum →
      exec (.rxByte b) s =
        .next { s with rxBuf := [], rxPend := none, deliveries := s.deliveries ++ [⟨hd, payload⟩] }) ∧
    (csumOf Config.block payload ≠ hd.payloadChecksum →
      exec (.rxByte b) s =
        .next { s with rxBuf := [], rxPend := none, discards := s.discards ++ [⟨.payloadCsum, 16 + payload.length⟩] })

/-- R27 and R107: in every state, every byte has a result, with at most one outcome, and no mark is set. States with an
overfull buffer, which no run reaches, are included, and there it rests on log entry 11. -/
def Obligations.RxByteTotalWithOneOutcome : Prop :=
  ∀ (b : Byte) (s : State), s.poweredUp = true →
    ∃ t ps ds, exec (.rxByte b) s = .next t ∧ t.deliveries = s.deliveries ++ ps ∧ t.discards = s.discards ++ ds ∧
      t.fault = s.fault ∧ t.refused = s.refused ∧ ps.length + ds.length ≤ 1 ∧ (t.rxBuf = s.rxBuf ++ [b] ∨ t.rxBuf = []) ∧
      ((ps ≠ [] ∨ ds ≠ []) → t.fsm = .awaitingHeader ∧ t.rxBuf = [])

/-- R97: RX.RESET clears FRX alone, keeps deliveries and discards, and is idempotent. Before the first reset it faults. -/
def Obligations.RxResetAbandonsStream : Prop :=
  encode .rxReset = 0x800 ∧ ∀ s : State,
    (s.poweredUp = true →
      exec .rxReset s = .next { s with rxBuf := [], rxPend := none } ∧
      runInstrs [.rxReset, .rxReset] s = exec .rxReset s ∧
      ∀ t, exec .rxReset s = .next t → t.fsm = .awaitingHeader) ∧
    (s.poweredUp = false → ∃ t, exec .rxReset s = .next t ∧ onlyFaults s t (.notReset 0x800))

/-- What each command leaves unchanged when it completes (10_state.md R15, R20, R28). -/
def Obligations.CommandFrames : Prop :=
  ∀ (i : Instr) (s t : State), s.poweredUp = true → exec i s = .next t →
    t.poweredUp = true ∧ t.port = s.port ∧ t.fault = s.fault ∧ t.refused = s.refused ∧
    (frxCommand i = false → t.frxPart = s.frxPart) ∧
    (csumCommand i = false → t.csumPart = s.csumPart) ∧
    (i ≠ .csRead → t.results = s.results) ∧
    (i = .csRead → t.csValue = s.csValue ∧ t.csPrev = s.csPrev) ∧
    (i = .rxReset → t.deliveries = s.deliveries ∧ t.discards = s.discards)

/-! ## FRX over streams -/

/-- R96 and R98: however a stream is split into chunks, the same commands run and the same state results. -/
def Obligations.ChunkingInvariance : Prop :=
  ∀ (chunks : List (List Byte)) (s : State),
    (chunks.map rxFeed).flatten = rxFeed chunks.flatten ∧
    chunks.foldl (fun (o : Host.Outcome State Fault Refusal) ch =>
        match o with
        | .next t => runInstrs (rxFeed ch) t
        | .fault r => .fault r
        | .refused r => .refused r) (.next s) = runInstrs (rxFeed chunks.flatten) s

/-- R15 and R96: among any commands, FRX sees only its own, and CSUM only its own. The record of `rd` is log entry 2. -/
def Obligations.UnitsDoNotInterfere : Prop :=
  ∀ (is : List Instr) (s : State), s.poweredUp = true →
    ∃ t tf tc, runInstrs is s = .next t ∧ runInstrs (is.filter frxCommand) s = .next tf ∧
      runInstrs (is.filter csumCommand) s = .next tc ∧ t.frxPart = tf.frxPart ∧ t.csumPart = tc.csumPart

/-- R100: aligned valid frames are delivered in order, each in the step of its last byte, with nothing discarded, and the rest is a
fresh stream. -/
def Obligations.AlignedFramesDelivered : Prop :=
  ∀ (fs : List (List Byte)) (s : State), s.atHeaderStart → (∀ f ∈ fs, validFrame Config.block f = true) →
    (∀ r : List Byte, runInstrs (rxFeed (fs.flatten ++ r)) s =
      runInstrs (rxFeed r) { s with deliveries := s.deliveries ++ fs.map framePacket }) ∧
    ∀ f t, validFrame Config.block f = true → runInstrs (rxFeed (fs.flatten ++ f.dropLast)) s = .next t →
      t.deliveries = s.deliveries ++ fs.map framePacket ∧ t.discards = s.discards

/-- R86: what FromFields and ToBytes send is delivered once, with the same version, operation, tag and payload. -/
def Obligations.FrameRoundTrip : Prop :=
  ∀ (v o t : Nat) (payload : List Byte) (s : State),
    v < 2 ^ 32 → o < 2 ^ 16 → t < 2 ^ 16 → payload.length ≤ 4080 → s.atHeaderStart →
    ∃ is p hd, expandPseudo Config.block (.rxFrame v o t payload) = .ok is ∧
      runInstrs is s = .next { s with deliveries := s.deliveries ++ [p] } ∧ p = ⟨hd, payload⟩ ∧
      hd.version.toNat = v ∧ hd.operation.toNat = o ∧ hd.tag.toNat = t ∧ hd.payloadLength.toNat = payload.length ∧
      hd.headerChecksum = csumOf Config.block (headerFields hd) ∧ hd.payloadChecksum = csumOf Config.block payload

/-- R101: after a header start, FRX is next at a header start exactly `nextHeaderStart` bytes on, and at none in between. -/
def Obligations.AlignmentByCounting : Prop :=
  ∀ (stream : List Byte) (s : State), s.atHeaderStart → 16 ≤ stream.length →
    (nextHeaderStart Config.block stream =
      let h := stream.take 16
      let len := (decodeHeader h).payloadLength.toNat
      if validateHeaderChecksum Config.block h = true ∧ len ≤ 4080 then 16 + len else 16) ∧
    ∀ n t, n ≤ stream.length → runInstrs (rxFeed (stream.take n)) s = .next t →
      (n = nextHeaderStart Config.block stream → t.atHeaderStart) ∧
      (0 < n → n < nextHeaderStart Config.block stream → ¬t.atHeaderStart)

/-- R102: after a discarded header no byte of it matters: any two discarded headers leave FRX to treat what follows alike. -/
def Obligations.DiscardedHeaderForgotten : Prop :=
  ∀ (h h' r : List Byte) (s t t' : State), s.atHeaderStart → h.length = 16 → h'.length = 16 →
    (validateHeaderChecksum Config.block h = false ∨ oversized Config.block (decodeHeader h) = true) →
    (validateHeaderChecksum Config.block h' = false ∨ oversized Config.block (decodeHeader h') = true) →
    runInstrs (rxFeed (h ++ r)) s = .next t → runInstrs (rxFeed (h' ++ r)) s = .next t' →
    t.rxBuf = t'.rxBuf ∧ t.rxPend = t'.rxPend ∧ t.deliveries = t'.deliveries ∧
      ∃ u, runInstrs (rxFeed r) s = .next u ∧ t.rxBuf = u.rxBuf ∧ t.rxPend = u.rxPend ∧ t.deliveries = u.deliveries

/-- R106: a valid frame with one bit flipped is not delivered: a flip in bytes 0 to 13 discards the header in the step of its 16th byte, a
flip in a later byte discards the whole frame in the step of its last byte.
The recorded reasons (HDR_CSUM also when the flipped length is oversized, PAYLOAD_CSUM for an empty payload) are R108, R111, R112 and log entry
21. -/
def Obligations.FlippedFrameDropped : Prop :=
  ∀ (f : List Byte) (i j : Nat) (s : State), s.atHeaderStart → validFrame Config.block f = true → i < f.length → j < 8 →
    (i < 14 → runInstrs (rxFeed ((flipBit f i j).take 16)) s = .next { s with discards := s.discards ++ [⟨.hdrCsum, 16⟩] }) ∧
    (14 ≤ i → runInstrs (rxFeed (flipBit f i j)) s = .next { s with discards := s.discards ++ [⟨.payloadCsum, f.length⟩] })

/-- R136: a partial header or payload waits in the buffer; nothing is delivered and nothing is discarded. -/
def Obligations.PartialFramesWait : Prop :=
  (∀ (bs : List Byte) (s : State), s.atHeaderStart → bs.length < 16 →
    runInstrs (rxFeed bs) s = .next { s with rxBuf := bs }) ∧
  ∀ (bs : List Byte) (s : State) (hd : Header), s.poweredUp = true → s.rxPend = some hd → s.rxBuf = [] →
    bs.length < hd.payloadLength.toNat → runInstrs (rxFeed bs) s = .next { s with rxBuf := bs }

/-- R138: every aligned 16 zero bytes are delivered as an empty packet of all-zero fields. -/
def Obligations.ZeroBytesAreFrames : Prop :=
  ∀ (n : Nat) (s : State), s.atHeaderStart →
    runInstrs (rxFeed (List.replicate (16 * n) 0)) s =
      .next { s with deliveries := s.deliveries ++ List.replicate n ⟨⟨0, 0, 0, 0, 0, 0⟩, []⟩ }

/-- R105: the incremental receiver has the same deliveries and the same FSM state after every byte of every stream. The incremental receiver is
the model's own design under R105, log entry 20. -/
def Obligations.IncrementalReceiverRefines : Prop :=
  ∀ (bs : List Byte) (s : State), s.atHeaderStart →
    ∃ t, runInstrs (rxFeed bs) s = .next t ∧
      (incFeed Config.block bs (.atHeaderStart s.deliveries)).deliveries = t.deliveries ∧
      ((incFeed Config.block bs (.atHeaderStart s.deliveries)).awaitingPayload = true ↔ t.fsm = .awaitingPayload)

/-! ## The port, reset and the marks -/

/-- A step runs the decoded command: an issued word that decodes to `i` is taken off the host's queue and `exec i` runs; a reserved word
is refused; an asserted `rst` resets the block whatever is issued with it (the queue is the model's own, log entries 1 and 7).
That a reserved word faults before the first reset (`refuseReserved`) is log entry 4. -/
def Obligations.StepRunsDecodedCommand : Prop :=
  ∀ (s : State) (rest : List HostEvent),
    (∀ cw i, s.port = .command cw :: rest → decode cw = .instr i → i.wf = true → step s = exec i { s with port := rest }) ∧
    (∀ cw, s.port = .command cw :: rest → decode cw = .reserved cw → step s = .next (refuseReserved cw { s with port := rest })) ∧
    ∀ q, s.port = ⟨true, q⟩ :: rest → step s = .next { s.assertRst with port := rest }

/-- R13 and R45: the commands the host issues take effect one a step, in order. -/
def Obligations.CommandStreamRunsInOrder : Prop :=
  ∀ (is : List Instr) (s : State) (rest : List HostEvent), s.port = commandEvents is ++ rest →
    Sys2Proof.core.run is.length s = runInstrs is { s with port := rest }

/-- R118 and R32: before the first reset every command sets the fault mark with its word and does nothing else. That a reserved word does
so too, and is not refused as Reserved (R59, R119), is the model's reading, log entry 4; the mark as a list of reasons is log entry 3, and the
host's queue log entry 1. -/
def Obligations.CommandBeforeResetFaults : Prop :=
  ∀ (s : State) (cw : CmdWord) (rest : List HostEvent), s.poweredUp = false → s.port = .command cw :: rest →
    step s = .next { s with port := rest, fault := s.fault ++ [.notReset cw] }

/-- R119, R132 and R133: commands issued while a command is in progress, or from inside its delivery, set the refused mark and do
nothing else; the command in progress has its own effect (log entries 5 and 6). A reserved word in progress counts as a
command, and every Overlap is recorded before every Reentrant: log entry 23. -/
def Obligations.OverlapAndReentryRefused : Prop :=
  ∀ (s t : State) (q : Issue) (rest : List HostEvent), s.poweredUp = true → s.port = ⟨false, some q⟩ :: rest →
    runWord q.word { s with port := rest } = .next t →
    step s = .next { t with refused := t.refused ++ List.replicate q.overlapping.length .overlap ++
      if s.deliveries.length < t.deliveries.length then List.replicate q.fromConsumer.length .reentrant else [] }

/-- R126: an asserted `rst` sets every element to its reset value and leaves the marks. R127: a command issued with it has no effect.
That a reserved word issued with `rst` sets no mark is log entry 7. -/
def Obligations.ResetSetsEveryElement : Prop :=
  ∀ s : State,
    (∃ t, takeEvent .reset s = .next t ∧ t.csValue = 0x0000 ∧ t.csPrev = 0x00 ∧ t.rxBuf = [] ∧ t.rxPend = none ∧
      t.fsm = .awaitingHeader ∧ t.deliveries = [] ∧ t.discards = [] ∧ t.poweredUp = true ∧ t.fault = s.fault ∧
      t.refused = s.refused) ∧
    ∀ cw, takeEvent { HostEvent.command cw with rst := true } s = takeEvent .reset s

/-- R31: the values of State.reset that the spec states. -/
def Obligations.ResetStateValues : Prop :=
  State.reset.csValue = 0x0000 ∧ State.reset.csPrev = 0x00 ∧ State.reset.rxBuf = [] ∧ State.reset.rxPend = none ∧
  State.reset.fsm = .awaitingHeader ∧ State.reset.deliveries = [] ∧ State.reset.discards = [] ∧ State.reset.poweredUp = true ∧
  State.powerOn.poweredUp = false

/-- R128: CS.RESET does to the CSUM registers what `rst` does, RX.RESET to the FRX registers; neither touches the rest, sets
`powered_up`, or may be issued before the first `rst`. -/
def Obligations.PartialResetsMatchReset : Prop :=
  ∀ s : State,
    (s.poweredUp = true → ∃ t u r, exec .csReset s = .next t ∧ exec .rxReset s = .next u ∧ takeEvent .reset s = .next r ∧
      t.csValue = r.csValue ∧ t.csPrev = r.csPrev ∧ t.frxPart = s.frxPart ∧
      u.rxBuf = r.rxBuf ∧ u.rxPend = r.rxPend ∧ u.csumPart = s.csumPart ∧
      u.deliveries = s.deliveries ∧ u.discards = s.discards) ∧
    (s.poweredUp = false → ∃ t u, exec .csReset s = .next t ∧ exec .rxReset s = .next u ∧
      onlyFaults s t (.notReset 0x100) ∧ onlyFaults s u (.notReset 0x800) ∧ t.poweredUp = false ∧ u.poweredUp = false)

/-- R125: with nothing on the inputs the block holds its state. -/
def Obligations.IdleBlockHoldsState : Prop :=
  ∀ s : State, (s.port = [] → step s = .next s) ∧ ∀ rest, s.port = .idle :: rest → step s = .next { s with port := rest }

/-- R30: no step clears the fault mark or the refused mark, or any reason recorded in one. -/
def Obligations.MarksNeverCleared : Prop :=
  ∀ s t : State, step s = .next t → s.fault <+: t.fault ∧ s.refused <+: t.refused

/-- R28 and R48: without `rst`, a step keeps every packet delivered, and adds at most one, in an RX.BYTE step only. -/
def Obligations.DeliveriesOnlyGrow : Prop :=
  ∀ (s t : State) (q : Option Issue) (rest : List HostEvent), s.port = ⟨false, q⟩ :: rest → step s = .next t →
    t.deliveries = s.deliveries ∨
      ∃ x b p, q = some x ∧ decode x.word = .instr (.rxByte b) ∧ s.poweredUp = true ∧ t.deliveries = s.deliveries ++ [p]

/-- R20 and R93: only the step that completes and accepts a header writes one into `rx_pend`.
For 15 bytes buffered this is R93. More, which no run reaches, are included, and there it rests on log entry 11. -/
def Obligations.PendingHeaderComesFromAcceptance : Prop :=
  ∀ (s t : State) (hd : Header), step s = .next t → t.rxPend = some hd → s.rxPend ≠ some hd →
    ∃ q b rest, s.port = ⟨false, some q⟩ :: rest ∧ decode q.word = .instr (.rxByte b) ∧ s.rxPend = none ∧
      15 ≤ s.rxBuf.length ∧ hd = decodeHeader (s.rxBuf ++ [b]) ∧ validateHeaderChecksum Config.block (s.rxBuf ++ [b]) = true ∧
      1 ≤ hd.payloadLength.toNat ∧ hd.payloadLength.toNat ≤ 4080 ∧ t.rxBuf = []

/-- R8: a configuration outside the constraints is refused and one inside is not; the block's is inside. -/
def Obligations.BadConfigurationRefused : Prop :=
  (∀ (c : Config) (o : Host.Outcome State Fault Refusal),
    (16 ≤ c.maxFrameSize ∧ c.maxFrameSize ≤ 2 ^ 32 - 1 + 16 → configured c o = o ∧ c.maxPayload < 2 ^ 32) ∧
    (¬(16 ≤ c.maxFrameSize ∧ c.maxFrameSize ≤ 2 ^ 32 - 1 + 16) → configured c o = .refused .configOutsideConstraints)) ∧
  Config.block.csumPoly = 0x8005 ∧ Config.block.maxFrameSize = 4096 ∧ Config.block.maxPayload = 4080 ∧ Config.block.bufCap = 4080 ∧
  ∀ s, ∃ t, step s = .next t

/-- R33 and R123: a step of one block reads and writes no other block. -/
def Obligations.BlocksAreIndependent : Prop :=
  ∀ (blocks : List State) (k : Nat) (s : State), blocks[k]? = some s →
    ∃ t blocks', step s = .next t ∧ stepBlock k blocks = .next blocks' ∧ blocks'.length = blocks.length ∧
      blocks'[k]? = some t ∧ ∀ j, j ≠ k → blocks'[j]? = blocks[j]?

/-! ## Invariants -/

/-- R31: the invariant holds right after reset. -/
def Obligations.ResetMeetsInvariant : Prop := State.reset.Inv

/-- R19, R23, R81, R108: every step keeps the invariant. -/
def Obligations.StepKeepsInvariant : Prop := ∀ s t : State, s.Inv → step s = .next t → t.Inv

/-- R35: in every reachable state of a block that has been reset, the buffer is below its capacity and the delivered packets are valid
frames. -/
def Obligations.ReachableBuffersBounded : Prop :=
  ∀ s : State, Reachable s → s.poweredUp = true →
    s.rxBuf.length < Config.block.bufCap ∧
    (s.rxPend = none → s.rxBuf.length ≤ 15) ∧
    (∀ hd, s.rxPend = some hd → s.rxBuf.length < hd.payloadLength.toNat ∧ hd.payloadLength.toNat ≤ 4080) ∧
    ∀ p ∈ s.deliveries, validFrame Config.block (toBytes Config.block p) = true

/-! ## Discard records -/

/-- R108: the rows of the discard table. When an RX.BYTE adds a record to the log, it is one of these: code 1, the header checksum fails, 16
bytes; code 2, it holds and the declared length is above 4080, 16 bytes; code 3, an empty payload with payloadChecksum not 0, 16 bytes, or a
completed payload whose checksum fails, 16 + L bytes. Each of these conditions adds its record. That buffers are not overfull is the
invariant's. Which reason is recorded is log entry 21, and a claim about the block's outputs does not depend on it (10_state.md R29). -/
def Obligations.DiscardRecordsFollowTable : Prop :=
  ∀ (b : Byte) (s t : State), s.poweredUp = true → s.Inv → exec (.rxByte b) s = .next t →
    let buf := s.rxBuf ++ [b]
    let headerDone := s.rxPend = none ∧ buf.length = 16
    let len := (decodeHeader buf).payloadLength.toNat
    let sumOk := validateHeaderChecksum Config.block buf = true
    let cause := fun (code n : Nat) =>
      (code = 1 ∧ n = 16 ∧ headerDone ∧ ¬sumOk) ∨
      (code = 2 ∧ n = 16 ∧ headerDone ∧ sumOk ∧ 4080 < len) ∨
      (code = 3 ∧ n = 16 ∧ headerDone ∧ sumOk ∧ len = 0 ∧ csumOf Config.block [] ≠ (decodeHeader buf).payloadChecksum) ∨
      (code = 3 ∧ ∃ hd, s.rxPend = some hd ∧ buf.length = hd.payloadLength.toNat ∧ n = 16 + hd.payloadLength.toNat ∧
        csumOf Config.block buf ≠ hd.payloadChecksum)
    (t.discardLog = s.discardLog ∧ ∀ code n, ¬cause code n) ∨
      ∃ code n, cause code n ∧ t.discardLog = s.discardLog ++ [(code, n)]
end

