-- ==== Sys2Proof/Laws/Assembler.lean ====
section
/-! SUPPORT. The assembler's parts: comments, words, and decimal operands of any size. -/

namespace Sys2Proof.Machine

/-- What stands after a `;` is not read. -/
theorem stripComment_append (line comment : List Char) : stripComment (line ++ ';' :: comment) = stripComment line := by
  simp only [stripComment]
  induction line with
  | nil => simp
  | cons ch line ih => by_cases h : ch = ';' <;> simp_all

theorem digitValue_digitChar {d : Nat} (h : d < 10) : digitValue (Nat.digitChar d) = some d := by
  revert d; decide

theorem digitValue_lt {ch : Char} {d : Nat} (h : digitValue ch = some d) (hd : d < 10) : 48 ≤ ch.toNat ∧ ch.toNat ≤ 57 := by
  simp only [digitValue] at h
  split at h
  · assumption
  · split at h
    · simp at h; omega
    · split at h <;> simp at h; omega

theorem readDigits_concat {w : List Char} {acc v d : Nat} {ch : Char} (h : readDigits 10 acc w = some v)
    (hc : digitValue ch = some d) (hd : d < 10) : readDigits 10 acc (w ++ [ch]) = some (10 * v + d) := by
  induction w generalizing acc with
  | nil => simp only [readDigits] at h; simp at h; simp [readDigits, hc, hd, h]
  | cons c w ih =>
    simp only [List.cons_append, readDigits] at h ⊢
    cases hv : digitValue c with
    | none => simp [hv] at h
    | some e =>
      simp only [hv] at h ⊢
      by_cases he : e < 10
      · rw [if_pos he] at h ⊢; exact ih h
      · rw [if_neg he] at h; simp at h

/-- A number is what its decimal digits read as. -/
theorem readDigits_toDigits (n : Nat) : readDigits 10 0 (Nat.toDigits 10 n) = some n := by
  induction n using Nat.strongRecOn with
  | ind n ih =>
    by_cases h : n < 10
    · rw [Nat.toDigits_of_lt_base h]
      exact (readDigits_concat (w := []) rfl (digitValue_digitChar h) h).trans (by simp)
    · have h10 : n % 10 < 10 := Nat.mod_lt _ (by decide)
      have e := Nat.toDigits_append_toDigits (b := 10) (n := n / 10) (d := n % 10) (by decide) (by omega) h10
      rw [show 10 * (n / 10) + n % 10 = n by omega, Nat.toDigits_of_lt_base h10] at e
      rw [← e, readDigits_concat (ih (n / 10) (by omega)) (digitValue_digitChar h10) h10]
      congr 1; omega

theorem digits_of_readDigits {w : List Char} {acc v : Nat} (h : readDigits 10 acc w = some v) :
    ∀ ch ∈ w, 48 ≤ ch.toNat ∧ ch.toNat ≤ 57 := by
  induction w generalizing acc with
  | nil => simp
  | cons c w ih =>
    simp only [readDigits] at h
    cases hv : digitValue c with
    | none => simp [hv] at h
    | some e =>
      simp only [hv] at h
      by_cases he : e < 10
      · rw [if_pos he] at h
        intro ch hm
        rcases List.mem_cons.1 hm with rfl | hm
        · exact digitValue_lt hv he
        · exact ih h ch hm
      · rw [if_neg he] at h; simp at h

/-- A decimal operand is the byte of its value, or above 255 (30_encoding.md R62). -/
theorem readOperand_toDigits (n : Nat) :
    readOperand (Nat.toDigits 10 n) = if n > 255 then .error .operandAbove255 else .ok (BitVec.ofNat 8 n) := by
  have hr := readDigits_toDigits n
  have hd := digits_of_readDigits hr
  generalize Nat.toDigits 10 n = w at hr hd
  unfold readOperand
  split
  · rename_i hex
    have := hd 'x' (by simp)
    simp at this
  · simp [hr]

/-- A run of characters that holds no separator is one word. -/
theorem splitWords_solid (r w : List Char) (h : ∀ ch ∈ w, ch ≠ ' ' ∧ ch ≠ '\t') (hne : r ≠ [] ∨ w ≠ []) :
    splitWords r w = [r.reverse ++ w] := by
  induction w generalizing r with
  | nil => cases r <;> simp_all [splitWords]
  | cons c w ih =>
    have hc := h c (by simp)
    rw [splitWords, if_neg (by simp [hc.1, hc.2]), ih (c :: r) (fun ch hm => h ch (by simp [hm])) (by simp)]
    simp

end Sys2Proof.Machine
end

