-- ==== Sys2Proof/Laws/Codec.lean ====
section
/-! SUPPORT. The byte codec, slices, the header layout and the byte swap. -/

namespace Sys2Proof.Machine

/-! ### swap16 -/

theorem swap16_toNat (v : Half) : (swap16 v).toNat = 256 * (v.toNat % 256) + v.toNat / 256 := by
  have hv := v.isLt
  have hl : v.toNat / 256 < 2 ^ 8 := by omega
  rw [swap16, BitVec.toNat_append, BitVec.extractLsb'_toNat, BitVec.extractLsb'_toNat, ← Nat.shiftLeft_add_eq_or_of_lt]
  · simp only [Nat.shiftRight_eq_div_pow, Nat.shiftLeft_eq]; omega
  · exact Nat.mod_lt _ (by decide)

@[simp] theorem swap16_swap16 (v : Half) : swap16 (swap16 v) = v := by
  apply BitVec.eq_of_toNat_eq
  have hv := v.isLt
  rw [swap16_toNat, swap16_toNat]; omega

theorem swap16_injective {v w : Half} (h : swap16 v = swap16 w) : v = w := by
  rw [← swap16_swap16 v, h, swap16_swap16]

@[simp] theorem swap16_zero : swap16 0#16 = 0#16 := by decide

/-! ### The codec -/

@[simp] theorem uintBytes_length (w v : Nat) : (uintBytes w v).length = w := by
  induction w with
  | zero => rfl
  | succ w ih => simp [uintBytes, ih]

/-- The value of a byte sequence, all of it read. -/
def beValue (s : List Byte) : Nat := s.foldl (fun v b => 256 * v + b.toNat) 0

theorem decodeUint_eq_beValue (s : List Byte) (w : Nat) : decodeUint s w = beValue (s.take w) := rfl

theorem beValue_foldl (s : List Byte) (a : Nat) :
    s.foldl (fun v b => 256 * v + b.toNat) a = a * 256 ^ s.length + beValue s := by
  induction s generalizing a with
  | nil => simp [beValue]
  | cons b s ih =>
    simp only [beValue, List.foldl_cons, List.length_cons]
    rw [ih, ih (256 * 0 + b.toNat)]; ring

@[simp] theorem beValue_nil : beValue [] = 0 := rfl

theorem beValue_cons (b : Byte) (s : List Byte) : beValue (b :: s) = b.toNat * 256 ^ s.length + beValue s := by
  rw [beValue, List.foldl_cons, beValue_foldl]; simp

theorem beValue_append (s t : List Byte) : beValue (s ++ t) = beValue s * 256 ^ t.length + beValue t := by
  rw [beValue, List.foldl_append, beValue_foldl]; rfl

theorem beValue_lt (s : List Byte) : beValue s < 256 ^ s.length := by
  induction s with
  | nil => simp
  | cons b s ih =>
    rw [beValue_cons, List.length_cons, pow_succ]
    have hb : b.toNat ≤ 255 := by have := b.isLt; omega
    calc b.toNat * 256 ^ s.length + beValue s < b.toNat * 256 ^ s.length + 256 ^ s.length := by omega
      _ = (b.toNat + 1) * 256 ^ s.length := by ring
      _ ≤ 256 * 256 ^ s.length := Nat.mul_le_mul_right _ (by omega)
      _ = 256 ^ s.length * 256 := by ring

theorem beValue_uintBytes (w v : Nat) : beValue (uintBytes w v) = v % 256 ^ w := by
  induction w with
  | zero => simp [uintBytes, Nat.mod_one]
  | succ w ih =>
    have h := Nat.mod_mul (x := v) (a := 256 ^ w) (b := 256)
    rw [uintBytes, beValue_cons, uintBytes_length, ih, BitVec.toNat_ofNat, show 256 ^ (w + 1) = 256 ^ w * 256 from pow_succ _ _, h,
      show 2 ^ 8 = 256 from rfl, mul_comm, add_comm]

theorem uintBytes_mod (w v : Nat) : uintBytes w (v % 256 ^ w) = uintBytes w v := by
  suffices h : ∀ k, uintBytes w (v % 256 ^ (w + k)) = uintBytes w v from h 0
  induction w with
  | zero => intro k; rfl
  | succ w ih =>
    intro k
    have e : w + 1 + k = w + (k + 1) := by omega
    rw [uintBytes, uintBytes, e, ih (k + 1), pow_add, Nat.mod_mul_right_div_self]
    congr 1
    apply BitVec.eq_of_toNat_eq
    rw [BitVec.toNat_ofNat, BitVec.toNat_ofNat, pow_succ]
    exact Nat.mod_mul_left_mod _ _ _

theorem uintBytes_beValue (s : List Byte) : uintBytes s.length (beValue s) = s := by
  induction s with
  | nil => rfl
  | cons b s ih =>
    have hlt := beValue_lt s
    rw [List.length_cons, uintBytes, beValue_cons]
    have hdiv : (b.toNat * 256 ^ s.length + beValue s) / 256 ^ s.length = b.toNat := by
      rw [mul_comm, Nat.mul_add_div (by positivity), Nat.div_eq_of_lt hlt, add_zero]
    rw [hdiv]
    congr 1
    · simp
    · rw [← uintBytes_mod, add_comm, Nat.add_mul_mod_self_right, Nat.mod_eq_of_lt hlt, ih]

theorem decodeUint_uintBytes (w v : Nat) : decodeUint (uintBytes w v) w = v % 256 ^ w := by
  rw [decodeUint_eq_beValue, List.take_of_length_le (by simp), beValue_uintBytes]

theorem uintBytes_decodeUint {s : List Byte} {w : Nat} (h : s.length = w) : uintBytes w (decodeUint s w) = s := by
  subst h; rw [decodeUint_eq_beValue, List.take_length, uintBytes_beValue]

theorem decodeUint_lt {s : List Byte} {w : Nat} (h : s.length = w) : decodeUint s w < 256 ^ w := by
  subst h; rw [decodeUint_eq_beValue, List.take_length]; exact beValue_lt s

/-! ### Slices and the header -/

theorem slice_length (s : List Byte) (a b : Nat) : (slice s a b).length = min (b - a) (s.length - a) := by simp [slice]

theorem slice_zero (s : List Byte) (b : Nat) : slice s 0 b = s.take b := by simp [slice]

theorem slice_append_slice (s : List Byte) {a b c : Nat} (hab : a ≤ b) (hbc : b ≤ c) : slice s a b ++ slice s b c = slice s a c := by
  obtain ⟨m, rfl⟩ := Nat.exists_eq_add_of_le hab
  obtain ⟨n, rfl⟩ := Nat.exists_eq_add_of_le hbc
  simp only [slice, show a + m - a = m by omega, show a + m + n - (a + m) = n by omega, show a + m + n - a = m + n by omega,
    ← List.drop_drop, List.take_add]

/-- A field of w bytes read at `a` and written again gives the same bytes. -/
theorem uintBytes_field {h : List Byte} {a w n : Nat} (hw : 2 ^ n = 256 ^ w) (hl : a + w ≤ h.length) :
    uintBytes w (BitVec.ofNat n (decodeUint (slice h a (a + w)) w)).toNat = slice h a (a + w) := by
  rw [BitVec.toNat_ofNat, hw, uintBytes_mod, uintBytes_decodeUint]
  rw [slice_length]; omega

/-- The first 12 bytes of a header are what its decoded fields encode to. -/
theorem headerFields_decodeHeader {h : List Byte} (hl : 16 ≤ h.length) : headerFields (decodeHeader h) = h.take 12 := by
  have e0 := uintBytes_field (h := h) (a := 0) (w := 4) (n := 32) (by decide) (by omega)
  have e1 := uintBytes_field (h := h) (a := 4) (w := 2) (n := 16) (by decide) (by omega)
  have e2 := uintBytes_field (h := h) (a := 6) (w := 2) (n := 16) (by decide) (by omega)
  have e3 := uintBytes_field (h := h) (a := 8) (w := 4) (n := 32) (by decide) (by omega)
  simp only [Nat.zero_add, Nat.reduceAdd] at e0 e1 e2 e3
  simp only [headerFields, decodeHeader, e0, e1, e2, e3]
  rw [slice_append_slice h (by omega) (by omega), slice_append_slice h (by omega) (by omega),
    slice_append_slice h (by omega) (by omega), slice_zero]

@[simp] theorem headerFields_length (hd : Header) : (headerFields hd).length = 12 := by simp [headerFields]

@[simp] theorem encodeHeader_length (c : Config) (hd : Header) : (encodeHeader c hd).length = 16 := by simp [encodeHeader]

theorem slice_append_middle (x y z : List Byte) {a b : Nat} (ha : x.length = a) (hb : y.length = b - a) :
    slice (x ++ y ++ z) a b = y := by
  subst ha; simp [slice, ← hb, List.append_assoc]

/-- Decoding six fields laid out in table order gives them back. -/
theorem decodeHeader_fields (hd : Header) (r : List Byte) :
    decodeHeader (headerFields hd ++ uintBytes 2 hd.headerChecksum.toNat ++ uintBytes 2 hd.payloadChecksum.toNat ++ r) = hd := by
  have hv := hd.version.isLt; have ho := hd.operation.isLt; have ht := hd.tag.isLt; have hp := hd.payloadLength.isLt
  have hh := hd.headerChecksum.isLt; have hc := hd.payloadChecksum.isLt
  let v := uintBytes 4 hd.version.toNat; let o := uintBytes 2 hd.operation.toNat; let g := uintBytes 2 hd.tag.toNat
  let l := uintBytes 4 hd.payloadLength.toNat; let k := uintBytes 2 hd.headerChecksum.toNat
  let q := uintBytes 2 hd.payloadChecksum.toNat
  have e0 : slice (headerFields hd ++ k ++ q ++ r) 0 4 = v := by
    have := slice_append_middle [] v (o ++ g ++ l ++ k ++ q ++ r) (a := 0) (b := 4) rfl (by simp [v])
    simpa [headerFields, v, o, g, l] using this
  have e1 : slice (headerFields hd ++ k ++ q ++ r) 4 6 = o := by
    have := slice_append_middle v o (g ++ l ++ k ++ q ++ r) (a := 4) (b := 6) (by simp [v]) (by simp [o])
    simpa [headerFields, v, o, g, l] using this
  have e2 : slice (headerFields hd ++ k ++ q ++ r) 6 8 = g := by
    have := slice_append_middle (v ++ o) g (l ++ k ++ q ++ r) (a := 6) (b := 8) (by simp [v, o]) (by simp [g])
    simpa [headerFields, v, o, g, l] using this
  have e3 : slice (headerFields hd ++ k ++ q ++ r) 8 12 = l := by
    have := slice_append_middle (v ++ o ++ g) l (k ++ q ++ r) (a := 8) (b := 12) (by simp [v, o, g]) (by simp [l])
    simpa [headerFields, v, o, g, l] using this
  have e4 : slice (headerFields hd ++ k ++ q ++ r) 12 14 = k := by
    have := slice_append_middle (headerFields hd) k (q ++ r) (a := 12) (b := 14) (by simp) (by simp [k])
    simpa using this
  have e5 : slice (headerFields hd ++ k ++ q ++ r) 14 16 = q := by
    have := slice_append_middle (headerFields hd ++ k) q r (a := 14) (b := 16) (by simp [k]) (by simp [q])
    simpa using this
  have b4 : ∀ x : BitVec 32, BitVec.ofNat 32 (decodeUint (uintBytes 4 x.toNat) 4) = x := fun x => by
    have := x.isLt; rw [decodeUint_uintBytes, Nat.mod_eq_of_lt (by simpa using this)]; simp
  have b2 : ∀ x : Half, BitVec.ofNat 16 (decodeUint (uintBytes 2 x.toNat) 2) = x := fun x => by
    have := x.isLt; rw [decodeUint_uintBytes, Nat.mod_eq_of_lt (by simpa using this)]; simp
  show decodeHeader (headerFields hd ++ k ++ q ++ r) = hd
  simp only [decodeHeader, e0, e1, e2, e3, e4, e5]
  simp only [v, o, g, l, k, q, b4, b2]

end Sys2Proof.Machine
end

