-- ==== Sys2Proof/Laws/Checksum.lean ====
section
/-! SUPPORT. The checksum functions: folds over concatenations, the update bit by bit, and linearity of one step. -/

namespace Sys2Proof.Machine

@[simp] theorem csumFoldFrom_nil (c : Config) (a : Half × Byte) : csumFoldFrom c a [] = a := rfl

@[simp] theorem csumFoldFrom_cons (c : Config) (a : Half × Byte) (b : Byte) (s : List Byte) :
    csumFoldFrom c a (b :: s) = csumFoldFrom c (csumStep c a.1 a.2 b) s := rfl

theorem csumFoldFrom_append (c : Config) (a : Half × Byte) (s t : List Byte) :
    csumFoldFrom c a (s ++ t) = csumFoldFrom c (csumFoldFrom c a s) t := by simp [csumFoldFrom]

/-- Running the accumulator one byte further (42_unpacker.md R105). -/
theorem csumFold_concat (c : Config) (s : List Byte) (b : Byte) :
    csumFold c (s ++ [b]) = csumStep c (csumFold c s).1 (csumFold c s).2 b := by simp [csumFold, csumFoldFrom_append]

@[simp] theorem csumOf_nil (c : Config) : csumOf c [] = 0#16 := by
  simp [csumOf, csumFold]

@[simp] theorem csumStep_snd (c : Config) (v : Half) (p b : Byte) : (csumStep c v p b).2 = b := rfl

theorem csumStep_fst (c : Config) (v : Half) (p b : Byte) :
    (csumStep c v p b).1 = (v <<< 1) ^^^ (if v.msb then c.csumPoly else 0) ^^^ (p ++ b) := by
  simp only [csumStep]; split <;> simp

/-- One step is linear in the state, the previous byte and the current byte together (40_checksum.md R75). -/
theorem csumStep_xor (c : Config) (v w : Half) (p q a b : Byte) :
    csumStep c (v ^^^ w) (p ^^^ q) (a ^^^ b) =
      ((csumStep c v p a).1 ^^^ (csumStep c w q b).1, (csumStep c v p a).2 ^^^ (csumStep c w q b).2) := by
  have happ : (p ^^^ q) ++ (a ^^^ b) = (p ++ a) ^^^ (q ++ b) := by
    apply BitVec.eq_of_getLsbD_eq; intro i hi
    simp only [BitVec.getLsbD_append, BitVec.getLsbD_xor]; split <;> simp
  refine Prod.ext ?_ rfl
  rw [csumStep_fst, csumStep_fst, csumStep_fst, happ, BitVec.msb_xor, BitVec.shiftLeft_xor_distrib]
  generalize v <<< 1 = x, w <<< 1 = y, p ++ a = m, q ++ b = n, c.csumPoly = k
  apply BitVec.eq_of_getLsbD_eq; intro i _
  cases v.msb <;> cases w.msb <;>
    simp only [BitVec.getLsbD_xor, BitVec.ofNat_eq_ofNat, BitVec.getLsbD_zero, Bool.xor_false, Bool.xor_true, Bool.not_false, Bool.not_true, if_true, Bool.false_eq_true, if_false] <;>
    cases x.getLsbD i <;> cases y.getLsbD i <;> cases m.getLsbD i <;> cases n.getLsbD i <;> cases k.getLsbD i <;> rfl

end Sys2Proof.Machine
end

