-- ==== Sys2Proof/Laws/Decode.lean ====
section
/-! SUPPORT. The fields of a command word, as numbers and put together again. -/

namespace Sys2Proof

theorem opField_toNat (cw : CmdWord) : (opField cw).toNat = cw.toNat / 256 := by
  have := cw.isLt
  simp [opField, BitVec.extractLsb'_toNat, Nat.shiftRight_eq_div_pow]; omega

theorem dataField_toNat (cw : CmdWord) : (dataField cw).toNat = cw.toNat % 256 := by
  simp [dataField, BitVec.extractLsb'_toNat]

theorem commandWord_toNat (op : BitVec 4) (data : Byte) : (commandWord op data).toNat = 256 * op.toNat + data.toNat := by
  have := data.isLt
  rw [commandWord, BitVec.toNat_append, ← Nat.shiftLeft_add_eq_or_of_lt this, Nat.shiftLeft_eq]; omega

@[simp] theorem opField_commandWord (op : BitVec 4) (data : Byte) : opField (commandWord op data) = op := by
  have := data.isLt
  apply BitVec.eq_of_toNat_eq; rw [opField_toNat, commandWord_toNat]; omega

@[simp] theorem dataField_commandWord (op : BitVec 4) (data : Byte) : dataField (commandWord op data) = data := by
  have := data.isLt
  apply BitVec.eq_of_toNat_eq; rw [dataField_toNat, commandWord_toNat]; omega

@[simp] theorem commandWord_fields (cw : CmdWord) : commandWord (opField cw) (dataField cw) = cw := by
  apply BitVec.eq_of_toNat_eq; rw [commandWord_toNat, opField_toNat, dataField_toNat]; omega

/-- A reserved word decodes to Reserved of itself. -/
theorem decode_reserved_self {cw w : CmdWord} (h : decode cw = .reserved w) : w = cw := by
  simp only [decode, noOperand] at h
  split at h <;> first | (split at h <;> simp_all) | simp_all

end Sys2Proof
end

