-- ==== Sys2Proof/Laws/State.lean ====
section
/-! SUPPORT. One lemma per field per update of State, so that no proof unfolds a record update. -/

namespace Sys2Proof.Machine

variable (s : State)


/-! ### bufAppend -/

@[simp] theorem State.bufAppend_csValue (b : Byte) : (s.bufAppend b).csValue = s.csValue := rfl
@[simp] theorem State.bufAppend_csPrev (b : Byte) : (s.bufAppend b).csPrev = s.csPrev := rfl
@[simp] theorem State.bufAppend_rxBuf (b : Byte) : (s.bufAppend b).rxBuf = s.rxBuf ++ [b] := rfl
@[simp] theorem State.bufAppend_rxPend (b : Byte) : (s.bufAppend b).rxPend = s.rxPend := rfl
@[simp] theorem State.bufAppend_deliveries (b : Byte) : (s.bufAppend b).deliveries = s.deliveries := rfl
@[simp] theorem State.bufAppend_discards (b : Byte) : (s.bufAppend b).discards = s.discards := rfl
@[simp] theorem State.bufAppend_fault (b : Byte) : (s.bufAppend b).fault = s.fault := rfl
@[simp] theorem State.bufAppend_refused (b : Byte) : (s.bufAppend b).refused = s.refused := rfl
@[simp] theorem State.bufAppend_poweredUp (b : Byte) : (s.bufAppend b).poweredUp = s.poweredUp := rfl
@[simp] theorem State.bufAppend_results (b : Byte) : (s.bufAppend b).results = s.results := rfl
@[simp] theorem State.bufAppend_port (b : Byte) : (s.bufAppend b).port = s.port := rfl

/-! ### bufClear -/

@[simp] theorem State.bufClear_csValue : (s.bufClear).csValue = s.csValue := rfl
@[simp] theorem State.bufClear_csPrev : (s.bufClear).csPrev = s.csPrev := rfl
@[simp] theorem State.bufClear_rxBuf : (s.bufClear).rxBuf = [] := rfl
@[simp] theorem State.bufClear_rxPend : (s.bufClear).rxPend = s.rxPend := rfl
@[simp] theorem State.bufClear_deliveries : (s.bufClear).deliveries = s.deliveries := rfl
@[simp] theorem State.bufClear_discards : (s.bufClear).discards = s.discards := rfl
@[simp] theorem State.bufClear_fault : (s.bufClear).fault = s.fault := rfl
@[simp] theorem State.bufClear_refused : (s.bufClear).refused = s.refused := rfl
@[simp] theorem State.bufClear_poweredUp : (s.bufClear).poweredUp = s.poweredUp := rfl
@[simp] theorem State.bufClear_results : (s.bufClear).results = s.results := rfl
@[simp] theorem State.bufClear_port : (s.bufClear).port = s.port := rfl

/-! ### setPend -/

@[simp] theorem State.setPend_csValue (v : Option Header) : (s.setPend v).csValue = s.csValue := rfl
@[simp] theorem State.setPend_csPrev (v : Option Header) : (s.setPend v).csPrev = s.csPrev := rfl
@[simp] theorem State.setPend_rxBuf (v : Option Header) : (s.setPend v).rxBuf = s.rxBuf := rfl
@[simp] theorem State.setPend_rxPend (v : Option Header) : (s.setPend v).rxPend = v := rfl
@[simp] theorem State.setPend_deliveries (v : Option Header) : (s.setPend v).deliveries = s.deliveries := rfl
@[simp] theorem State.setPend_discards (v : Option Header) : (s.setPend v).discards = s.discards := rfl
@[simp] theorem State.setPend_fault (v : Option Header) : (s.setPend v).fault = s.fault := rfl
@[simp] theorem State.setPend_refused (v : Option Header) : (s.setPend v).refused = s.refused := rfl
@[simp] theorem State.setPend_poweredUp (v : Option Header) : (s.setPend v).poweredUp = s.poweredUp := rfl
@[simp] theorem State.setPend_results (v : Option Header) : (s.setPend v).results = s.results := rfl
@[simp] theorem State.setPend_port (v : Option Header) : (s.setPend v).port = s.port := rfl

/-! ### frxClear -/

@[simp] theorem State.frxClear_csValue : (s.frxClear).csValue = s.csValue := rfl
@[simp] theorem State.frxClear_csPrev : (s.frxClear).csPrev = s.csPrev := rfl
@[simp] theorem State.frxClear_rxBuf : (s.frxClear).rxBuf = [] := rfl
@[simp] theorem State.frxClear_rxPend : (s.frxClear).rxPend = none := rfl
@[simp] theorem State.frxClear_deliveries : (s.frxClear).deliveries = s.deliveries := rfl
@[simp] theorem State.frxClear_discards : (s.frxClear).discards = s.discards := rfl
@[simp] theorem State.frxClear_fault : (s.frxClear).fault = s.fault := rfl
@[simp] theorem State.frxClear_refused : (s.frxClear).refused = s.refused := rfl
@[simp] theorem State.frxClear_poweredUp : (s.frxClear).poweredUp = s.poweredUp := rfl
@[simp] theorem State.frxClear_results : (s.frxClear).results = s.results := rfl
@[simp] theorem State.frxClear_port : (s.frxClear).port = s.port := rfl

/-! ### setCsum -/

@[simp] theorem State.setCsum_csValue (v : Half × Byte) : (s.setCsum v).csValue = v.1 := rfl
@[simp] theorem State.setCsum_csPrev (v : Half × Byte) : (s.setCsum v).csPrev = v.2 := rfl
@[simp] theorem State.setCsum_rxBuf (v : Half × Byte) : (s.setCsum v).rxBuf = s.rxBuf := rfl
@[simp] theorem State.setCsum_rxPend (v : Half × Byte) : (s.setCsum v).rxPend = s.rxPend := rfl
@[simp] theorem State.setCsum_deliveries (v : Half × Byte) : (s.setCsum v).deliveries = s.deliveries := rfl
@[simp] theorem State.setCsum_discards (v : Half × Byte) : (s.setCsum v).discards = s.discards := rfl
@[simp] theorem State.setCsum_fault (v : Half × Byte) : (s.setCsum v).fault = s.fault := rfl
@[simp] theorem State.setCsum_refused (v : Half × Byte) : (s.setCsum v).refused = s.refused := rfl
@[simp] theorem State.setCsum_poweredUp (v : Half × Byte) : (s.setCsum v).poweredUp = s.poweredUp := rfl
@[simp] theorem State.setCsum_results (v : Half × Byte) : (s.setCsum v).results = s.results := rfl
@[simp] theorem State.setCsum_port (v : Half × Byte) : (s.setCsum v).port = s.port := rfl

/-! ### returnResult -/

@[simp] theorem State.returnResult_csValue (v : Half) : (s.returnResult v).csValue = s.csValue := rfl
@[simp] theorem State.returnResult_csPrev (v : Half) : (s.returnResult v).csPrev = s.csPrev := rfl
@[simp] theorem State.returnResult_rxBuf (v : Half) : (s.returnResult v).rxBuf = s.rxBuf := rfl
@[simp] theorem State.returnResult_rxPend (v : Half) : (s.returnResult v).rxPend = s.rxPend := rfl
@[simp] theorem State.returnResult_deliveries (v : Half) : (s.returnResult v).deliveries = s.deliveries := rfl
@[simp] theorem State.returnResult_discards (v : Half) : (s.returnResult v).discards = s.discards := rfl
@[simp] theorem State.returnResult_fault (v : Half) : (s.returnResult v).fault = s.fault := rfl
@[simp] theorem State.returnResult_refused (v : Half) : (s.returnResult v).refused = s.refused := rfl
@[simp] theorem State.returnResult_poweredUp (v : Half) : (s.returnResult v).poweredUp = s.poweredUp := rfl
@[simp] theorem State.returnResult_results (v : Half) : (s.returnResult v).results = s.results ++ [v] := rfl
@[simp] theorem State.returnResult_port (v : Half) : (s.returnResult v).port = s.port := rfl

/-! ### emitDeliver -/

@[simp] theorem State.emitDeliver_csValue (p : Packet) : (s.emitDeliver p).csValue = s.csValue := rfl
@[simp] theorem State.emitDeliver_csPrev (p : Packet) : (s.emitDeliver p).csPrev = s.csPrev := rfl
@[simp] theorem State.emitDeliver_rxBuf (p : Packet) : (s.emitDeliver p).rxBuf = s.rxBuf := rfl
@[simp] theorem State.emitDeliver_rxPend (p : Packet) : (s.emitDeliver p).rxPend = s.rxPend := rfl
@[simp] theorem State.emitDeliver_deliveries (p : Packet) : (s.emitDeliver p).deliveries = s.deliveries ++ [p] := rfl
@[simp] theorem State.emitDeliver_discards (p : Packet) : (s.emitDeliver p).discards = s.discards := rfl
@[simp] theorem State.emitDeliver_fault (p : Packet) : (s.emitDeliver p).fault = s.fault := rfl
@[simp] theorem State.emitDeliver_refused (p : Packet) : (s.emitDeliver p).refused = s.refused := rfl
@[simp] theorem State.emitDeliver_poweredUp (p : Packet) : (s.emitDeliver p).poweredUp = s.poweredUp := rfl
@[simp] theorem State.emitDeliver_results (p : Packet) : (s.emitDeliver p).results = s.results := rfl
@[simp] theorem State.emitDeliver_port (p : Packet) : (s.emitDeliver p).port = s.port := rfl

/-! ### noteDiscard -/

@[simp] theorem State.noteDiscard_csValue (r : DiscardReason) (n : Nat) : (s.noteDiscard r n).csValue = s.csValue := rfl
@[simp] theorem State.noteDiscard_csPrev (r : DiscardReason) (n : Nat) : (s.noteDiscard r n).csPrev = s.csPrev := rfl
@[simp] theorem State.noteDiscard_rxBuf (r : DiscardReason) (n : Nat) : (s.noteDiscard r n).rxBuf = s.rxBuf := rfl
@[simp] theorem State.noteDiscard_rxPend (r : DiscardReason) (n : Nat) : (s.noteDiscard r n).rxPend = s.rxPend := rfl
@[simp] theorem State.noteDiscard_deliveries (r : DiscardReason) (n : Nat) : (s.noteDiscard r n).deliveries = s.deliveries := rfl
@[simp] theorem State.noteDiscard_discards (r : DiscardReason) (n : Nat) : (s.noteDiscard r n).discards = s.discards ++ [⟨r, n⟩] := rfl
@[simp] theorem State.noteDiscard_fault (r : DiscardReason) (n : Nat) : (s.noteDiscard r n).fault = s.fault := rfl
@[simp] theorem State.noteDiscard_refused (r : DiscardReason) (n : Nat) : (s.noteDiscard r n).refused = s.refused := rfl
@[simp] theorem State.noteDiscard_poweredUp (r : DiscardReason) (n : Nat) : (s.noteDiscard r n).poweredUp = s.poweredUp := rfl
@[simp] theorem State.noteDiscard_results (r : DiscardReason) (n : Nat) : (s.noteDiscard r n).results = s.results := rfl
@[simp] theorem State.noteDiscard_port (r : DiscardReason) (n : Nat) : (s.noteDiscard r n).port = s.port := rfl

/-! ### discard -/

@[simp] theorem State.discard_csValue (r : DiscardReason) (n : Nat) : (s.discard r n).csValue = s.csValue := rfl
@[simp] theorem State.discard_csPrev (r : DiscardReason) (n : Nat) : (s.discard r n).csPrev = s.csPrev := rfl
@[simp] theorem State.discard_rxBuf (r : DiscardReason) (n : Nat) : (s.discard r n).rxBuf = [] := rfl
@[simp] theorem State.discard_rxPend (r : DiscardReason) (n : Nat) : (s.discard r n).rxPend = none := rfl
@[simp] theorem State.discard_deliveries (r : DiscardReason) (n : Nat) : (s.discard r n).deliveries = s.deliveries := rfl
@[simp] theorem State.discard_discards (r : DiscardReason) (n : Nat) : (s.discard r n).discards = s.discards ++ [⟨r, n⟩] := rfl
@[simp] theorem State.discard_fault (r : DiscardReason) (n : Nat) : (s.discard r n).fault = s.fault := rfl
@[simp] theorem State.discard_refused (r : DiscardReason) (n : Nat) : (s.discard r n).refused = s.refused := rfl
@[simp] theorem State.discard_poweredUp (r : DiscardReason) (n : Nat) : (s.discard r n).poweredUp = s.poweredUp := rfl
@[simp] theorem State.discard_results (r : DiscardReason) (n : Nat) : (s.discard r n).results = s.results := rfl
@[simp] theorem State.discard_port (r : DiscardReason) (n : Nat) : (s.discard r n).port = s.port := rfl

/-! ### deliver -/

@[simp] theorem State.deliver_csValue (p : Packet) : (s.deliver p).csValue = s.csValue := rfl
@[simp] theorem State.deliver_csPrev (p : Packet) : (s.deliver p).csPrev = s.csPrev := rfl
@[simp] theorem State.deliver_rxBuf (p : Packet) : (s.deliver p).rxBuf = [] := rfl
@[simp] theorem State.deliver_rxPend (p : Packet) : (s.deliver p).rxPend = none := rfl
@[simp] theorem State.deliver_deliveries (p : Packet) : (s.deliver p).deliveries = s.deliveries ++ [p] := rfl
@[simp] theorem State.deliver_discards (p : Packet) : (s.deliver p).discards = s.discards := rfl
@[simp] theorem State.deliver_fault (p : Packet) : (s.deliver p).fault = s.fault := rfl
@[simp] theorem State.deliver_refused (p : Packet) : (s.deliver p).refused = s.refused := rfl
@[simp] theorem State.deliver_poweredUp (p : Packet) : (s.deliver p).poweredUp = s.poweredUp := rfl
@[simp] theorem State.deliver_results (p : Packet) : (s.deliver p).results = s.results := rfl
@[simp] theorem State.deliver_port (p : Packet) : (s.deliver p).port = s.port := rfl

/-! ### raiseFault -/

@[simp] theorem State.raiseFault_csValue (f : Fault) : (s.raiseFault f).csValue = s.csValue := rfl
@[simp] theorem State.raiseFault_csPrev (f : Fault) : (s.raiseFault f).csPrev = s.csPrev := rfl
@[simp] theorem State.raiseFault_rxBuf (f : Fault) : (s.raiseFault f).rxBuf = s.rxBuf := rfl
@[simp] theorem State.raiseFault_rxPend (f : Fault) : (s.raiseFault f).rxPend = s.rxPend := rfl
@[simp] theorem State.raiseFault_deliveries (f : Fault) : (s.raiseFault f).deliveries = s.deliveries := rfl
@[simp] theorem State.raiseFault_discards (f : Fault) : (s.raiseFault f).discards = s.discards := rfl
@[simp] theorem State.raiseFault_fault (f : Fault) : (s.raiseFault f).fault = s.fault ++ [f] := rfl
@[simp] theorem State.raiseFault_refused (f : Fault) : (s.raiseFault f).refused = s.refused := rfl
@[simp] theorem State.raiseFault_poweredUp (f : Fault) : (s.raiseFault f).poweredUp = s.poweredUp := rfl
@[simp] theorem State.raiseFault_results (f : Fault) : (s.raiseFault f).results = s.results := rfl
@[simp] theorem State.raiseFault_port (f : Fault) : (s.raiseFault f).port = s.port := rfl

/-! ### raiseRefusal -/

@[simp] theorem State.raiseRefusal_csValue (r : Refusal) : (s.raiseRefusal r).csValue = s.csValue := rfl
@[simp] theorem State.raiseRefusal_csPrev (r : Refusal) : (s.raiseRefusal r).csPrev = s.csPrev := rfl
@[simp] theorem State.raiseRefusal_rxBuf (r : Refusal) : (s.raiseRefusal r).rxBuf = s.rxBuf := rfl
@[simp] theorem State.raiseRefusal_rxPend (r : Refusal) : (s.raiseRefusal r).rxPend = s.rxPend := rfl
@[simp] theorem State.raiseRefusal_deliveries (r : Refusal) : (s.raiseRefusal r).deliveries = s.deliveries := rfl
@[simp] theorem State.raiseRefusal_discards (r : Refusal) : (s.raiseRefusal r).discards = s.discards := rfl
@[simp] theorem State.raiseRefusal_fault (r : Refusal) : (s.raiseRefusal r).fault = s.fault := rfl
@[simp] theorem State.raiseRefusal_refused (r : Refusal) : (s.raiseRefusal r).refused = s.refused ++ [r] := rfl
@[simp] theorem State.raiseRefusal_poweredUp (r : Refusal) : (s.raiseRefusal r).poweredUp = s.poweredUp := rfl
@[simp] theorem State.raiseRefusal_results (r : Refusal) : (s.raiseRefusal r).results = s.results := rfl
@[simp] theorem State.raiseRefusal_port (r : Refusal) : (s.raiseRefusal r).port = s.port := rfl

/-! ### assertRst -/

@[simp] theorem State.assertRst_csValue : (s.assertRst).csValue = 0 := rfl
@[simp] theorem State.assertRst_csPrev : (s.assertRst).csPrev = 0 := rfl
@[simp] theorem State.assertRst_rxBuf : (s.assertRst).rxBuf = [] := rfl
@[simp] theorem State.assertRst_rxPend : (s.assertRst).rxPend = none := rfl
@[simp] theorem State.assertRst_deliveries : (s.assertRst).deliveries = [] := rfl
@[simp] theorem State.assertRst_discards : (s.assertRst).discards = [] := rfl
@[simp] theorem State.assertRst_fault : (s.assertRst).fault = s.fault := rfl
@[simp] theorem State.assertRst_refused : (s.assertRst).refused = s.refused := rfl
@[simp] theorem State.assertRst_poweredUp : (s.assertRst).poweredUp = true := rfl
@[simp] theorem State.assertRst_results : (s.assertRst).results = [] := rfl
@[simp] theorem State.assertRst_port : (s.assertRst).port = s.port := rfl

/-! ### issueFirst -/

@[simp] theorem State.issueFirst_csValue (e : HostEvent) : (s.issueFirst e).csValue = s.csValue := rfl
@[simp] theorem State.issueFirst_csPrev (e : HostEvent) : (s.issueFirst e).csPrev = s.csPrev := rfl
@[simp] theorem State.issueFirst_rxBuf (e : HostEvent) : (s.issueFirst e).rxBuf = s.rxBuf := rfl
@[simp] theorem State.issueFirst_rxPend (e : HostEvent) : (s.issueFirst e).rxPend = s.rxPend := rfl
@[simp] theorem State.issueFirst_deliveries (e : HostEvent) : (s.issueFirst e).deliveries = s.deliveries := rfl
@[simp] theorem State.issueFirst_discards (e : HostEvent) : (s.issueFirst e).discards = s.discards := rfl
@[simp] theorem State.issueFirst_fault (e : HostEvent) : (s.issueFirst e).fault = s.fault := rfl
@[simp] theorem State.issueFirst_refused (e : HostEvent) : (s.issueFirst e).refused = s.refused := rfl
@[simp] theorem State.issueFirst_poweredUp (e : HostEvent) : (s.issueFirst e).poweredUp = s.poweredUp := rfl
@[simp] theorem State.issueFirst_results (e : HostEvent) : (s.issueFirst e).results = s.results := rfl
@[simp] theorem State.issueFirst_port (e : HostEvent) : (s.issueFirst e).port = e :: s.port := rfl

/-! ### The discard log in codes -/

theorem DiscardReason.code_injective {r r' : DiscardReason} (h : r.code = r'.code) : r = r' := by
  cases r <;> cases r' <;> first | rfl | cases h

/-- The log in codes determines the records. -/
theorem Discard.record_injective {d d' : Discard} (h : d.record = d'.record) : d = d' := by
  obtain ⟨hr, hn⟩ := Prod.mk.inj h
  cases d
  cases d'
  congr
  exact DiscardReason.code_injective hr

@[simp] theorem State.noteDiscard_discardLog (r : DiscardReason) (n : Nat) :
    (s.noteDiscard r n).discardLog = s.discardLog ++ [(r.code, n)] := by simp [State.discardLog, Discard.record]

@[simp] theorem State.discard_discardLog (r : DiscardReason) (n : Nat) :
    (s.discard r n).discardLog = s.discardLog ++ [(r.code, n)] := by simp [State.discardLog, Discard.record]

@[simp] theorem State.deliver_discardLog (p : Packet) : (s.deliver p).discardLog = s.discardLog := rfl
@[simp] theorem State.bufAppend_discardLog (b : Byte) : (s.bufAppend b).discardLog = s.discardLog := rfl
@[simp] theorem State.frxClear_discardLog : s.frxClear.discardLog = s.discardLog := rfl
@[simp] theorem State.assertRst_discardLog : s.assertRst.discardLog = [] := rfl

/-! ### FSM state and parts -/

@[simp] theorem State.fsm_of_none {s : State} (h : s.rxPend = none) : s.fsm = .awaitingHeader := by simp [State.fsm, h]

@[simp] theorem State.fsm_of_some {s : State} {hd : Header} (h : s.rxPend = some hd) : s.fsm = .awaitingPayload := by
  simp [State.fsm, h]

theorem State.fsm_eq_awaitingPayload : s.fsm = .awaitingPayload ↔ s.rxPend.isSome = true := by
  cases h : s.rxPend <;> simp [State.fsm, h]

theorem State.fsm_eq_awaitingHeader : s.fsm = .awaitingHeader ↔ s.rxPend = none := by
  cases h : s.rxPend <;> simp [State.fsm, h]

end Sys2Proof.Machine
end

