-- ==== Sys2Proof/Laws/Ops.lean ====
section
/-! SUPPORT. What each shared operation over the state can do: the command wrapper, the meanings, the port and the step. -/

namespace Sys2Proof.Machine

/-! ### Configuration -/

@[simp] theorem configured_block (o : Host.Outcome State Fault Refusal) : configured Config.block o = o := rfl

theorem headerSize_eq : Config.headerSize = 16 := rfl

theorem maxPayload_block : Config.block.maxPayload = 4080 := rfl

/-! ### What a command does -/

theorem command_eq (i : Instr) (f : State → State) (s : State) :
    command i f s = .next (if s.poweredUp then f s else s.raiseFault (.notReset (encode i))) := rfl

theorem command_of_poweredUp (i : Instr) (f : State → State) {s : State} (h : s.poweredUp = true) :
    command i f s = .next (f s) := by simp [command, h]

/-- The effect of each command on a block that has been reset: what its meaning passes to `command`. -/
def effect : Instr → State → State
  | .nop => fun s => s
  | .csReset => (·.setCsum (0x0000, 0x00))
  | .csUpdate b => fun s => s.setCsum (csumStep Config.block s.csValue s.csPrev b)
  | .csRead => fun s => s.returnResult (swap16 s.csValue)
  | .rxReset => State.frxClear
  | .rxByte b => rxByteEffect Config.block b

/-- Every meaning is its effect under the command wrapper. -/
theorem exec_eq_command (i : Instr) (s : State) : exec i s = command i (effect i) s := by cases i <;> rfl

theorem exec_of_poweredUp (i : Instr) {s : State} (h : s.poweredUp = true) : exec i s = .next (effect i s) := by
  rw [exec_eq_command, command_of_poweredUp i _ h]

theorem exec_of_not_poweredUp (i : Instr) {s : State} (h : s.poweredUp = false) :
    exec i s = .next (s.raiseFault (.notReset (encode i))) := by
  rw [exec_eq_command, command_eq]; simp [h]

theorem exec_next (i : Instr) (s : State) : ∃ t, exec i s = .next t := ⟨_, exec_eq_command i s⟩

theorem onlyFaults_raiseFault (s : State) (f : Fault) : onlyFaults s (s.raiseFault f) f := ⟨by simp, rfl⟩

theorem onlyRefuses_raiseRefusal (s : State) (r : Refusal) : onlyRefuses s (s.raiseRefusal r) r := ⟨by simp, rfl⟩

/-! ### RX.BYTE: everything it can do -/

/-- The inversion lemma of a completed header (42_unpacker.md R91 to R93). -/
theorem headerComplete_cases (c : Config) (s : State) :
    (validateHeaderChecksum c s.rxBuf = false ∧ headerComplete c s = s.discard .hdrCsum 16) ∨
    (validateHeaderChecksum c s.rxBuf = true ∧ oversized c (decodeHeader s.rxBuf) = true ∧
      headerComplete c s = s.discard .oversize 16) ∨
    (validateHeaderChecksum c s.rxBuf = true ∧ oversized c (decodeHeader s.rxBuf) = false ∧
      (decodeHeader s.rxBuf).payloadLength = 0 ∧ payloadChecksumOk c (decodeHeader s.rxBuf) [] = true ∧
      headerComplete c s = s.deliver (fromWire (decodeHeader s.rxBuf) [])) ∨
    (validateHeaderChecksum c s.rxBuf = true ∧ oversized c (decodeHeader s.rxBuf) = false ∧
      (decodeHeader s.rxBuf).payloadLength = 0 ∧ payloadChecksumOk c (decodeHeader s.rxBuf) [] = false ∧
      headerComplete c s = s.discard .payloadCsum 16) ∨
    (validateHeaderChecksum c s.rxBuf = true ∧ oversized c (decodeHeader s.rxBuf) = false ∧
      (decodeHeader s.rxBuf).payloadLength ≠ 0 ∧
      headerComplete c s = s.bufClear.setPend (some (decodeHeader s.rxBuf))) := by
  simp only [headerComplete, headerSize_eq]
  cases validateHeaderChecksum c s.rxBuf
  · simp
  · cases oversized c (decodeHeader s.rxBuf)
    · by_cases hl : (decodeHeader s.rxBuf).payloadLength = 0
      · cases payloadChecksumOk c (decodeHeader s.rxBuf) [] <;> simp [hl]
      · have hl' : ¬(decodeHeader s.rxBuf).payloadLength = 0#32 := hl
        simp [hl']
    · simp

/-- The inversion lemma of RX.BYTE: the rows of 42_unpacker.md R88. -/
theorem rxByteEffect_cases (c : Config) (b : Byte) (s : State) :
    (s.rxPend = none ∧ s.rxBuf.length + 1 < 16 ∧ rxByteEffect c b s = s.bufAppend b) ∨
    (s.rxPend = none ∧ 16 ≤ s.rxBuf.length + 1 ∧ rxByteEffect c b s = headerComplete c (s.bufAppend b)) ∨
    (∃ hd, s.rxPend = some hd ∧ s.rxBuf.length + 1 < hd.payloadLength.toNat ∧ rxByteEffect c b s = s.bufAppend b) ∨
    (∃ hd, s.rxPend = some hd ∧ hd.payloadLength.toNat ≤ s.rxBuf.length + 1 ∧ payloadChecksumOk c hd (s.rxBuf ++ [b]) = true ∧
      rxByteEffect c b s = (s.bufAppend b).deliver (fromWire hd (s.rxBuf ++ [b]))) ∨
    (∃ hd, s.rxPend = some hd ∧ hd.payloadLength.toNat ≤ s.rxBuf.length + 1 ∧ payloadChecksumOk c hd (s.rxBuf ++ [b]) = false ∧
      rxByteEffect c b s = (s.bufAppend b).discard .payloadCsum (16 + (s.rxBuf.length + 1))) := by
  cases hp : s.rxPend with
  | none =>
    by_cases hl : s.rxBuf.length + 1 < 16
    · left; simp [rxByteEffect, hp, hl, headerSize_eq]
    · right; left; simp [rxByteEffect, hp, hl, headerSize_eq]; omega
  | some hd =>
    by_cases hl : s.rxBuf.length + 1 < hd.payloadLength.toNat
    · right; right; left; exact ⟨hd, rfl, hl, by simp [rxByteEffect, hp, hl]⟩
    · right; right; right
      cases hc : payloadChecksumOk c hd (s.rxBuf ++ [b])
      · right; exact ⟨hd, rfl, by omega, hc, by simp [rxByteEffect, hp, hl, payloadComplete, hc, headerSize_eq]⟩
      · left; exact ⟨hd, rfl, by omega, hc, by simp [rxByteEffect, hp, hl, payloadComplete, hc]⟩

/-- What no command changes: the marks, the host's queue and `powered_up`. -/
theorem effect_keeps (i : Instr) (s : State) :
    (effect i s).fault = s.fault ∧ (effect i s).refused = s.refused ∧ (effect i s).port = s.port ∧
      (effect i s).poweredUp = s.poweredUp := by
  cases i with
  | rxByte b =>
    have hc : ∀ u : State, (headerComplete Config.block u).fault = u.fault ∧ (headerComplete Config.block u).refused = u.refused ∧
        (headerComplete Config.block u).port = u.port ∧ (headerComplete Config.block u).poweredUp = u.poweredUp := fun u => by
      obtain ⟨-, h⟩ | ⟨-, -, h⟩ | ⟨-, -, -, -, h⟩ | ⟨-, -, -, -, h⟩ | ⟨-, -, -, h⟩ := headerComplete_cases Config.block u <;> simp [h]
    obtain ⟨-, -, h⟩ | ⟨-, -, h⟩ | ⟨hd, -, -, h⟩ | ⟨hd, -, -, -, h⟩ | ⟨hd, -, -, -, h⟩ := rxByteEffect_cases Config.block b s <;>
      simp [effect, h, hc]
  | _ => simp [effect]

/-! ### The host's queue: no command reads it or writes it -/

theorem headerComplete_setPort (c : Config) (s : State) (p : List HostEvent) :
    headerComplete c { s with port := p } = { headerComplete c s with port := p } := by
  simp only [headerComplete]
  cases validateHeaderChecksum c s.rxBuf
  · rfl
  · cases oversized c (decodeHeader s.rxBuf)
    · by_cases hl : (decodeHeader s.rxBuf).payloadLength = 0
      · cases payloadChecksumOk c (decodeHeader s.rxBuf) [] <;> simp only [hl, if_true] <;> rfl
      · simp only [hl, if_false]; rfl
    · rfl

theorem payloadComplete_setPort (c : Config) (hd : Header) (s : State) (p : List HostEvent) :
    payloadComplete c hd { s with port := p } = { payloadComplete c hd s with port := p } := by
  simp only [payloadComplete]
  cases payloadChecksumOk c hd s.rxBuf <;> rfl

theorem rxByteEffect_setPort (c : Config) (b : Byte) (s : State) (p : List HostEvent) :
    rxByteEffect c b { s with port := p } = { rxByteEffect c b s with port := p } := by
  have hh := headerComplete_setPort c (s.bufAppend b) p
  have hq := fun hd => payloadComplete_setPort c hd (s.bufAppend b) p
  simp only [rxByteEffect, State.bufAppend] at *
  cases s.rxPend with
  | none => by_cases hl : (s.rxBuf ++ [b]).length < Config.headerSize <;> simp only [hl, if_true, if_false]; first | rfl | exact hh
  | some hd => by_cases hl : (s.rxBuf ++ [b]).length < hd.payloadLength.toNat <;> simp only [hl, if_true, if_false]; first | rfl | exact hq hd

/-- No command's effect depends on what the host will issue later. -/
theorem effect_setPort (i : Instr) (s : State) (p : List HostEvent) :
    effect i { s with port := p } = { effect i s with port := p } := by
  cases i with
  | rxByte b => exact rxByteEffect_setPort Config.block b s p
  | _ => rfl

theorem exec_setPort {i : Instr} {s t : State} (p : List HostEvent) (h : exec i s = .next t) :
    exec i { s with port := p } = .next { t with port := p } := by
  rw [exec_eq_command, command_eq] at h ⊢
  injection h with h
  rw [← h]
  by_cases hp : s.poweredUp = true
  · rw [if_pos (show State.poweredUp { s with port := p } = true from hp), if_pos hp, effect_setPort]
  · rw [if_neg (show ¬State.poweredUp { s with port := p } = true from hp), if_neg hp]; rfl

/-! ### Command sequences -/

@[simp] theorem runInstrs_nil (s : State) : runInstrs [] s = .next s := rfl

theorem runInstrs_cons {i : Instr} {is : List Instr} {s t : State} (h : exec i s = .next t) :
    runInstrs (i :: is) s = runInstrs is t := by simp [runInstrs, h]

/-- The state a command sequence leaves: sequences always complete, since every command does. -/
def afterInstrs (is : List Instr) (s : State) : State :=
  is.foldl (fun s i => if s.poweredUp then effect i s else s.raiseFault (.notReset (encode i))) s

theorem runInstrs_eq (is : List Instr) (s : State) : runInstrs is s = .next (afterInstrs is s) := by
  induction is generalizing s with
  | nil => rfl
  | cons i is ih => rw [runInstrs_cons (exec_eq_command i s), ih]; rfl

theorem runInstrs_append {is js : List Instr} {s t : State} (h : runInstrs is s = .next t) :
    runInstrs (is ++ js) s = runInstrs js t := by
  rw [runInstrs_eq] at h; injection h with h
  rw [runInstrs_eq, runInstrs_eq, afterInstrs, List.foldl_append, ← h]; rfl

@[simp] theorem rxFeed_append (a b : List Byte) : rxFeed (a ++ b) = rxFeed a ++ rxFeed b := by simp [rxFeed]

@[simp] theorem rxFeed_nil : rxFeed [] = [] := rfl

@[simp] theorem rxFeed_cons (b : Byte) (bs : List Byte) : rxFeed (b :: bs) = .rxByte b :: rxFeed bs := rfl

/-! ### The port and the step -/

theorem runWord_instr {cw : CmdWord} {i : Instr} (h : decode cw = .instr i) (s : State) : runWord cw s = exec i s := by
  simp [runWord, h]

theorem runWord_reserved {cw w : CmdWord} (h : decode cw = .reserved w) (s : State) : runWord cw s = .next (refuseReserved cw s) := by
  simp [runWord, h]

theorem runWord_next (cw : CmdWord) (s : State) : ∃ t, runWord cw s = .next t := by
  cases h : decode cw with
  | instr i => rw [runWord_instr h]; exact exec_next i s
  | reserved w => exact ⟨_, runWord_reserved h s⟩

@[simp] theorem refuseOverlapping_nil (s : State) : refuseOverlapping [] s = s := by simp [refuseOverlapping]

@[simp] theorem refuseReentrant_nil (s : State) : refuseReentrant [] s = s := by simp [refuseReentrant]

/-- The inversion lemma of an issued command. -/
theorem takeIssue_eq {q : Issue} {s t : State} (h : runWord q.word s = .next t) :
    takeIssue q s = .next (if delivered s t then refuseReentrant q.fromConsumer (refuseOverlapping q.overlapping t)
      else refuseOverlapping q.overlapping t) := by
  simp [takeIssue, h]

@[simp] theorem takeIssue_plain (cw : CmdWord) (s : State) : takeIssue ⟨cw, [], []⟩ s = runWord cw s := by
  obtain ⟨t, h⟩ := runWord_next cw s
  rw [takeIssue_eq (q := ⟨cw, [], []⟩) h, h, refuseOverlapping_nil, refuseReentrant_nil, ite_self]

/-- The inversion lemma of the step: one of these holds, and there is no other. -/
theorem step_cases (s : State) :
    (s.port = [] ∧ step s = .next s) ∨
    (∃ q rest, s.port = ⟨true, q⟩ :: rest ∧ step s = .next { s.assertRst with port := rest }) ∨
    (∃ rest, s.port = ⟨false, none⟩ :: rest ∧ step s = .next { s with port := rest }) ∨
    (∃ q rest t, s.port = ⟨false, some q⟩ :: rest ∧ runWord q.word { s with port := rest } = .next t ∧
      step s = .next (if delivered s t then refuseReentrant q.fromConsumer (refuseOverlapping q.overlapping t)
        else refuseOverlapping q.overlapping t)) := by
  cases hp : s.port with
  | nil => left; simp [step, portStep, hp]
  | cons e rest =>
    obtain ⟨r, q⟩ := e
    cases r with
    | true => right; left; exact ⟨q, rest, rfl, by simp [step, portStep, hp, takeEvent]; rfl⟩
    | false =>
      right; right
      cases q with
      | none => left; exact ⟨rest, rfl, by simp [step, portStep, hp, takeEvent]⟩
      | some q =>
        right
        obtain ⟨t, ht⟩ := runWord_next q.word { s with port := rest }
        refine ⟨q, rest, t, rfl, ht, ?_⟩
        simp only [step, portStep, hp, takeEvent, configured_block]
        exact takeIssue_eq ht

/-- A run from a reachable state reaches a reachable state. -/
theorem reachable_run {k : Nat} {s t : State} (hs : Reachable s) (h : Sys2Proof.core.run k s = .next t) : Reachable t := by
  induction k generalizing s with
  | zero => injection h with h; exact h ▸ hs
  | succ k ih =>
    simp only [Host.Core.run] at h
    cases hu : Sys2Proof.core.step s with
    | next u => rw [hu] at h; exact ih (.step hs hu) h
    | fault r => rw [hu] at h; cases h
    | refused r => rw [hu] at h; cases h

end Sys2Proof.Machine
end

