-- ==== Sys2Proof/Laws/Frx.lean ====
section
/-! SUPPORT. Feeding a byte stream to FRX: what a run of RX.BYTEs leaves, header by header and payload by payload. -/

namespace Sys2Proof.Machine

/-- The state after a stream of bytes, in a block that has been reset. -/
def feed (bs : List Byte) (s : State) : State := bs.foldl (fun s b => rxByteEffect Config.block b s) s

@[simp] theorem feed_nil (s : State) : feed [] s = s := rfl

@[simp] theorem feed_cons (b : Byte) (bs : List Byte) (s : State) : feed (b :: bs) s = feed bs (rxByteEffect Config.block b s) := rfl

theorem feed_append (a b : List Byte) (s : State) : feed (a ++ b) s = feed b (feed a s) := by simp [feed]

theorem feed_poweredUp (bs : List Byte) (s : State) : (feed bs s).poweredUp = s.poweredUp := by
  induction bs generalizing s with
  | nil => rfl
  | cons b bs ih => rw [feed_cons, ih]; exact (effect_keeps (.rxByte b) s).2.2.2

theorem runInstrs_rxFeed (bs : List Byte) {s : State} (h : s.poweredUp = true) : runInstrs (rxFeed bs) s = .next (feed bs s) := by
  induction bs generalizing s with
  | nil => rfl
  | cons b bs ih =>
    rw [rxFeed_cons, runInstrs_cons (exec_of_poweredUp (.rxByte b) h)]
    exact ih ((effect_keeps (.rxByte b) s).2.2.2.trans h)

/-- Bytes that do not complete the header are only buffered (42_unpacker.md R90). -/
theorem feed_header_part {bs : List Byte} {s : State} (hp : s.rxPend = none) (hl : s.rxBuf.length + bs.length < 16) :
    feed bs s = { s with rxBuf := s.rxBuf ++ bs } := by
  induction bs generalizing s with
  | nil => simp
  | cons b bs ih =>
    have hb : rxByteEffect Config.block b s = s.bufAppend b := by
      simp only [List.length_cons] at hl
      simp [rxByteEffect, hp, headerSize_eq, show s.rxBuf.length + 1 < 16 by omega]
    rw [feed_cons, hb, ih (by simpa using hp) (by simp at hl ⊢; omega)]
    simp [State.bufAppend]

/-- Bytes that do not complete the payload are only buffered (42_unpacker.md R94). -/
theorem feed_payload_part {bs : List Byte} {s : State} {hd : Header} (hp : s.rxPend = some hd)
    (hl : s.rxBuf.length + bs.length < hd.payloadLength.toNat) : feed bs s = { s with rxBuf := s.rxBuf ++ bs } := by
  induction bs generalizing s with
  | nil => simp
  | cons b bs ih =>
    have hb : rxByteEffect Config.block b s = s.bufAppend b := by
      simp only [List.length_cons] at hl
      simp [rxByteEffect, hp, show s.rxBuf.length + 1 < hd.payloadLength.toNat by omega]
    rw [feed_cons, hb, ih (by simpa using hp) (by simp at hl ⊢; omega)]
    simp [State.bufAppend]

/-- Sixteen bytes from a header start complete the header (42_unpacker.md R91). -/
theorem feed_header {h : List Byte} {s : State} (hp : s.rxPend = none) (hb : s.rxBuf = []) (hl : h.length = 16) :
    feed h s = headerComplete Config.block { s with rxBuf := h } := by
  obtain rfl | ⟨g, b, rfl⟩ := List.eq_nil_or_concat h
  · simp at hl
  rw [List.concat_eq_append] at *
  have hg : g.length = 15 := by simpa using hl
  rw [feed_append, feed_header_part hp (by simp [hb, hg])]
  simp [rxByteEffect, hp, headerSize_eq, hb, hg, State.bufAppend]

/-- The declared number of bytes from an empty buffer complete the payload (42_unpacker.md R95). -/
theorem feed_payload {p : List Byte} {s : State} {hd : Header} (hp : s.rxPend = some hd) (hb : s.rxBuf = [])
    (hl : p.length = hd.payloadLength.toNat) (h1 : 1 ≤ p.length) :
    feed p s = payloadComplete Config.block hd { s with rxBuf := p } := by
  obtain rfl | ⟨g, b, rfl⟩ := List.eq_nil_or_concat p
  · simp at h1
  rw [List.concat_eq_append] at *
  have hg : g.length + 1 = hd.payloadLength.toNat := by simpa using hl
  rw [feed_append, feed_payload_part hp (by simp [hb]; omega)]
  simp [rxByteEffect, hp, hb, hg, State.bufAppend]

end Sys2Proof.Machine
end

