-- ==== Sys2Proof/Laws/PerInstr.lean ====
section
/-! SUPPORT. Statements about every instruction as syntax, one lemma per constructor. -/

namespace Sys2Proof.Laws

/-- The command word agrees with the match and mask of its own row of 30_encoding.md R58, and the row stands in the table. -/
def TableRow.Statement (i : Sys2Proof.Instr) : Prop :=
  (Sys2Proof.tableRow i).matches (Sys2Proof.encode i) = true ∧ Sys2Proof.tableRow i ∈ Sys2Proof.opcodeTable

theorem TableRow.nop : TableRow.Statement .nop := by
  unfold TableRow.Statement; decide

theorem TableRow.csReset : TableRow.Statement .csReset := by
  unfold TableRow.Statement; decide

theorem TableRow.csUpdate (b : Sys2Proof.Byte) : TableRow.Statement (.csUpdate b) := by
  unfold TableRow.Statement; revert b; decide

theorem TableRow.csRead : TableRow.Statement .csRead := by
  unfold TableRow.Statement; decide

theorem TableRow.rxReset : TableRow.Statement .rxReset := by
  unfold TableRow.Statement; decide

theorem TableRow.rxByte (b : Sys2Proof.Byte) : TableRow.Statement (.rxByte b) := by
  unfold TableRow.Statement; revert b; decide

end Sys2Proof.Laws
end

