-- ==== Sys2Proof/Tests/Slice0.lean ====
section
/-! SUPPORT. Tests of the model on values the spec gives (95_test_vectors.md and the rules' own examples), the smoke tests of the checks, and
a witness for the hypotheses of each statement. -/

open Sys2Proof Sys2Proof.Machine

namespace Sys2Proof.Tests

/-! ### Small states and the named frames of 95_test_vectors.md -/

def csum (v : Half) (p : Byte) : State := { State.reset with csValue := v, csPrev := p }

def frx (buf : List Byte) (pend : Option Header) : State := { State.reset with rxBuf := buf, rxPend := pend }

def issued (es : List HostEvent) (s : State) : State := { s with port := es }

def unreset : State := { State.reset with poweredUp := false }

def nextOf : Host.Outcome State Fault Refusal → Option State
  | .next t => some t
  | .fault _ | .refused _ => none

/-- A[0..16): the header of frame A. -/
def headerA : List Byte := [0x00, 0x00, 0x00, 0x01, 0x00, 0x07, 0x00, 0x03, 0x00, 0x00, 0x00, 0x05, 0xF5, 0x78, 0x01, 0x02]

def frameA : List Byte := headerA ++ [0x01, 0x02, 0x03, 0x04, 0x05]

def frameZ : List Byte := [0x00, 0x00, 0x00, 0x01, 0x00, 0x02, 0x00, 0x03, 0x00, 0x00, 0x00, 0x00, 0xB0, 0xD9, 0x00, 0x00]

def frameZb : List Byte := [0x00, 0x00, 0x00, 0x01, 0x00, 0x02, 0x00, 0x03, 0x00, 0x00, 0x00, 0x00, 0xB0, 0xD9, 0x00, 0x01]

def headerO : List Byte := [0x00, 0x00, 0x00, 0x00, 0x00, 0x00, 0x00, 0x00, 0x00, 0x00, 0x0F, 0xF1, 0xEF, 0x0F, 0x00, 0x00]

def headerOH : List Byte := [0x00, 0x00, 0x00, 0x00, 0x00, 0x00, 0x00, 0x00, 0x00, 0x00, 0x0F, 0xF1, 0xEE, 0x0F, 0x00, 0x00]

def headerMx : List Byte := [0x00, 0x00, 0x00, 0x00, 0x00, 0x00, 0x00, 0x00, 0x00, 0x00, 0x0F, 0xF0, 0xEE, 0x0F, 0x00, 0x00]

def headerD : List Byte := [0xDE, 0xAD, 0xBE, 0xEF, 0xCA, 0xFE, 0xBA, 0xBE, 0x00, 0x00, 0x00, 0x01, 0x8F, 0x0F, 0xAA, 0x00]

/-- H1: the fields of headerA. -/
def recordA : Header := ⟨1, 7, 3, 5, 0xF578, 0x0102⟩

/-! ### Decoding: words written bit by bit from 30_encoding.md R58 -/

theorem test_decode_nop : decode 0b0000_00000000 = .instr .nop := by decide
theorem test_decode_csReset : decode 0b0001_00000000 = .instr .csReset := by decide
theorem test_decode_csUpdate : decode 0b0010_10100101 = .instr (.csUpdate 0xA5) := by decide
theorem test_decode_csRead : decode 0b0011_00000000 = .instr .csRead := by decide
theorem test_decode_rxReset : decode 0b1000_00000000 = .instr .rxReset := by decide
theorem test_decode_rxByte : decode 0b1001_00000101 = .instr (.rxByte 0x05) := by decide

/-- E7 to E10: reserved words. -/
theorem test_decode_reserved :
    decode 0b0001_00000001 = .reserved 0x101 ∧ decode 0b0100_00000001 = .reserved 0x401 ∧ decode 0b1010_00000000 = .reserved 0xA00 := by
  decide

/-- R62's examples: CS.UPDATE 0x12 is 0x212 and RX.BYTE 5 is 0x905. -/
theorem test_encode_operands : encode (.csUpdate 0x12) = 0x212 ∧ encode (.rxByte 5) = 0x905 := by decide

theorem test_table_word : decodeTableWord 12 0x9FF = some (.rxByte 0xFF) ∧ decodeTableWord 12 0x1300 = none := by decide

/-! ### Smoke tests of the checks: an ill-formed term for each -/

/-- No command is ill-formed: a byte operand has 256 values and all are legal (R67, R89). -/
theorem test_every_instr_wf (i : Instr) : i.wf = true := by
  cases i <;> simp [Instr.wf] <;> rename_i b <;> have := b.isLt <;> omega

theorem test_packet_refused : Packet.wf ⟨recordA, [0x01, 0x02, 0x03, 0x04]⟩ = false ∧ Packet.wf ⟨recordA, [1, 2, 3, 4, 5]⟩ = true := by decide

theorem test_length_refused : Header.withinBound Config.block ⟨0, 0, 0, 4081, 0, 0⟩ = false ∧
    Header.withinBound Config.block ⟨0, 0, 0, 4080, 0, 0⟩ = true := by decide

theorem test_pseudo_refused : PseudoOp.wf (.rxFrame (2 ^ 32) 0 0 []) = false ∧ PseudoOp.wf (.rxFrame 0 65536 0 []) = false ∧
    PseudoOp.wf (.rxFrame 0 0 65536 []) = false ∧ PseudoOp.wf (.rxFrame 1 7 3 [1]) = true := by decide

theorem test_pseudo_length_refused (p : List Byte) (h : 2 ^ 32 ≤ p.length) : PseudoOp.wf (.rxFrame 1 7 3 p) = false := by
  simp [PseudoOp.wf]; omega

theorem test_config_refused : Config.valid ⟨0x8005, 15⟩ = false ∧ Config.valid ⟨0x8005, 2 ^ 32 + 16⟩ = false ∧
    Config.valid ⟨0x8005, 2 ^ 32 + 15⟩ = true ∧ Config.valid ⟨0, 16⟩ = true := by decide

/-! ### One step of each command -/

/-- S3: (0001, 01) and 02 give (0100, 02). -/
theorem test_csUpdate_pair : nextOf (exec (.csUpdate 0x02) (csum 0x0001 0x01)) = some (csum 0x0100 0x02) := by decide

/-- S13: (ABCD, 12) and 34 give (C5AB, 34), with the polynomial. -/
theorem test_csUpdate_polynomial : nextOf (exec (.csUpdate 0x34) (csum 0xABCD 0x12)) = some (csum 0xC5AB 0x34) := by decide

/-- R66. -/
theorem test_csReset : nextOf (exec .csReset (csum 0xFFFF 0xAB)) = some (csum 0x0000 0x00) := by decide

/-- R68's example: with cs_value 0x78F5, CS.READ returns 0xF578. -/
theorem test_csRead : nextOf (exec .csRead (csum 0x78F5 0x05)) = some { csum 0x78F5 0x05 with results := [0xF578] } := by decide

/-- R72. -/
theorem test_nop : nextOf (exec .nop (csum 0x1234 0x56)) = some (csum 0x1234 0x56) := by decide

/-- R97's example: six buffered bytes are dropped; U18. -/
theorem test_rxReset : nextOf (exec .rxReset (frx [0x00, 0x00, 0x00, 0x01, 0x00, 0x07] none)) = some (frx [] none) := by decide

/-- U1 at byte #21: A's packet is delivered. -/
theorem test_rxByte_delivers : nextOf (exec (.rxByte 0x05) (frx [0x01, 0x02, 0x03, 0x04] (some recordA))) =
    some { State.reset with deliveries := [⟨recordA, [0x01, 0x02, 0x03, 0x04, 0x05]⟩] } := by decide

/-- U17 at byte #16: the checksum reason wins over the length. -/
theorem test_rxByte_reason : nextOf (exec (.rxByte 0x00) (frx (headerOH.take 15) none)) =
    some { State.reset with discards := [⟨.hdrCsum, 16⟩] } := by decide +kernel

/-! ### Marks, reset and the port -/

/-- F1: RX.BYTE 0x05 before the first reset. -/
theorem test_before_reset : nextOf (step (unreset.withFetchWord 12 0x905)) = some { unreset with fault := [.notReset 0x905] } := by decide

/-- F2. -/
theorem test_reserved_step : nextOf (step (State.reset.withFetchWord 12 0x401)) = some { State.reset with refused := [.reserved 0x401] } := by
  decide

/-- F5, and R127: `rst` wins over the command issued with it. -/
theorem test_rst_wins : nextOf (step (issued [⟨true, some ⟨0x201, [], []⟩⟩] (csum 0x0001 0x01))) = some State.reset := by decide

/-- R119 and R132: CS.UPDATE 01 has its effect, the words issued while it is in progress are refused. -/
theorem test_overlap : nextOf (step (issued [⟨false, some ⟨0x201, [0x100, 0x905], []⟩⟩] State.reset)) =
    some { csum 0x0001 0x01 with refused := [.overlap, .overlap] } := by decide

/-- R119 and R133: a command from inside the delivery of U1's byte #21 is refused. -/
theorem test_reentrant :
    nextOf (step (issued [⟨false, some ⟨0x905, [], [0x900]⟩⟩] (frx [0x01, 0x02, 0x03, 0x04] (some recordA)))) =
      some { State.reset with deliveries := [⟨recordA, [0x01, 0x02, 0x03, 0x04, 0x05]⟩], refused := [.reentrant] } := by decide

/-! ### The pure functions -/

/-- K17 and K23. -/
theorem test_csumOf : csumOf Config.block [0x31, 0x32, 0x33, 0x34, 0x35, 0x36, 0x37, 0x38, 0x39] = 0x56A6 ∧
    csumOf Config.block (headerA.take 12) = 0xF578 := by decide +kernel

/-- H1 and H4. -/
theorem test_decodeHeader : decodeHeader headerA = recordA ∧
    decodeHeader headerD = ⟨0xDEADBEEF, 0xCAFE, 0xBABE, 1, 0x8F0F, 0xAA00⟩ := by decide +kernel

/-- H5: the stored header checksum is ignored. -/
theorem test_encodeHeader : encodeHeader Config.block ⟨1, 7, 3, 5, 0x1234, 0x0102⟩ = headerA := by decide +kernel

/-- H8 to H10. -/
theorem test_validFrame : validFrame Config.block frameA = true ∧ validFrame Config.block headerO = false ∧
    validFrame Config.block frameZb = false := by decide +kernel

/-- R62's examples and rejections. -/
theorem test_assembler : assembleLine "CS.UPDATE 0x12 ; 212".toList = .ok (some 0x212) ∧
    assembleLine "RX.BYTE 5".toList = .ok (some 0x905) ∧ assembleLine "RX.BYTE 256".toList = .error .operandAbove255 ∧
    assembleLine "; note".toList = .ok none := by decide +kernel

/-! ### A witness for the hypotheses of each statement -/

theorem reset_atHeaderStart : State.reset.atHeaderStart := ⟨rfl, rfl, rfl⟩

theorem witness_DecodeEncodeRoundTrip : Instr.wf (.csUpdate 0xFF) = true ∧ decode 0x2FF = .instr (.csUpdate 0xFF) := by decide

/-- At each end of the ranges of R59. -/
theorem witness_ReservedWordsAreRefused : State.reset.poweredUp = true ∧
    ∀ cw ∈ ([0x400, 0x7FF, 0xA00, 0xFFF, 0x001, 0x0FF, 0x101, 0x1FF, 0x301, 0x3FF, 0x801, 0x8FF] : List CmdWord),
      decode cw = .reserved cw := by decide

theorem witness_DecodeUintIsBigEndianSum : 4 ≤ ([0xDE, 0xAD, 0xBE, 0xEF] : List Byte).length := by decide

theorem witness_EncodeUintInvertsDecodeUint : 65535 < 2 ^ (8 * 2) ∧ 1 < 2 ∧ 2 ^ (8 * 2) ≤ 65536 := by decide

theorem witness_HeaderBitPositions : headerD.length = 16 ∧ 15 < 16 := by decide

theorem witness_AssemblerFollowsSyntax : "NOP" ∈ ["NOP", "CS.RESET", "CS.READ", "RX.RESET"] ∧ "RX.BYTE" ∈ ["CS.UPDATE", "RX.BYTE"] ∧
    255 < 256 ∧ "nop" ∈ ["nop", "RX", "RX.BYTE5", "0x905"] := by decide

/-- Both sides of bit 15, and before the first reset. -/
theorem witness_CsUpdateFoldsOneByte : (csum 0x8000 0x00).poweredUp = true ∧ 32768 ≤ (csum 0x8000 0x00).csValue.toNat ∧
    (csum 0x7FFF 0xFF).poweredUp = true ∧ ¬32768 ≤ (csum 0x7FFF 0xFF).csValue.toNat ∧ unreset.poweredUp = false := by decide

theorem witness_CsResetClearsAccumulator : (csum 0xFFFF 0xAB).poweredUp = true ∧ unreset.poweredUp = false := by decide

theorem witness_CsReadReturnsSwappedState : (csum 0x78F5 0x05).poweredUp = true ∧ unreset.poweredUp = false := by decide

theorem witness_NopDoesNothing : State.reset.poweredUp = true ∧ unreset.poweredUp = false := by decide

theorem witness_ContinuousOutputShowsReadValue : (csum 0x78F5 0x05).poweredUp = true := by decide

/-- S15 and S16. -/
theorem witness_PreviousByteIsHidden : (csum 0x8205 0x00).poweredUp = true ∧ 0x03 ≠ (csum 0x8205 0x00).csPrev := by decide

theorem witness_CsSumReturnsCsumOf : (csum 0xFFFF 0xAB).poweredUp = true := by decide

theorem witness_WiderRegisterReadsSame : 16 ≤ 16 ∧ 16 ≤ 32 := by decide

theorem witness_TwoByteOrderShows : (0x01 : Byte) ≠ 0x02 ∧ csumOf Config.block [0xFF, 0x80] = csumOf Config.block [0xFF, 0x80] := by decide

theorem witness_ChecksumIsLinear : ([0x12, 0x34, 0x56] : List Byte).length = ([0xAB, 0xCD, 0xEF] : List Byte).length := by decide

theorem witness_SingleBitErrorsDetected : 2 < ([0x12, 0x34, 0x56] : List Byte).length ∧ 0 < ([0x12] : List Byte).length ∧ 7 < 8 := by decide

theorem witness_HeaderCheckCoversTwelveBytes : headerA.length = 16 := by decide

theorem witness_EncodeHeaderRecomputesChecksum : headerO.length = 16 := by decide

theorem witness_ChecksumFieldsHoldSwappedState : ∃ p, fromFields Config.block 1 7 3 [1, 2, 3, 4, 5] = .ok p := ⟨_, rfl⟩

/-- The ends of each range of R82. -/
theorem witness_FromFieldsDomain : (2 ^ 32 - 1 < 2 ^ 32 ∧ 2 ^ 16 - 1 < 2 ^ 16 ∧ (List.replicate (2 ^ 32 - 1) (0 : Byte)).length ≤ 2 ^ 32 - 1) ∧
    ¬2 ^ 32 < 2 ^ 32 ∧ ¬2 ^ 16 < 2 ^ 16 ∧ ¬(List.replicate (2 ^ 32) (0 : Byte)).length ≤ 2 ^ 32 - 1 := by
  simp only [List.length_replicate]; decide

theorem witness_SentFramesAreValid : (∃ p, fromFields Config.block 1 7 3 [1, 2, 3, 4, 5] = .ok p) ∧
    (List.replicate 4080 (0 : Byte)).length ≤ 4080 ∧ ¬(List.replicate 4081 (0 : Byte)).length ≤ 4080 := by
  refine ⟨⟨_, rfl⟩, ?_⟩; simp only [List.length_replicate]; decide

/-- The 15th header byte, and the fourth of five payload bytes. -/
theorem witness_RxByteBuffersIncompleteBytes : (frx (headerA.take 14) none).poweredUp = true ∧ (frx (headerA.take 14) none).rxPend = none ∧
    (frx (headerA.take 14) none).rxBuf.length + 1 < 16 ∧ (frx [1, 2, 3] (some recordA)).rxPend = some recordA ∧
    (frx [1, 2, 3] (some recordA)).rxBuf.length + 1 < recordA.payloadLength.toNat := by decide

/-- OH fails its checksum; O passes it and declares 4081 bytes. -/
theorem witness_RxByteDiscardsBadHeader : (frx (headerOH.take 15) none).rxBuf.length + 1 = 16 ∧
    (csumOf Config.block (headerOH.take 12)).toNat ≠ 256 * 0xEE + 0x0F ∧
    (frx (headerO.take 15) none).rxBuf.length + 1 = 16 ∧ (csumOf Config.block (headerO.take 12)).toNat = 256 * 0xEF + 0x0F ∧
    4080 < 256 ^ 3 * 0 + 256 ^ 2 * 0 + 256 * 0x0F + 0xF1 := by decide +kernel

/-- Z and Zb. -/
theorem witness_RxByteSettlesEmptyPayload : (frx (frameZ.take 15) none).rxBuf.length + 1 = 16 ∧
    validateHeaderChecksum Config.block frameZ = true ∧ (decodeHeader frameZ).payloadLength = 0 ∧
    (decodeHeader frameZ).payloadChecksum = 0x0000 ∧ validateHeaderChecksum Config.block frameZb = true ∧
    (decodeHeader frameZb).payloadLength = 0 ∧ (decodeHeader frameZb).payloadChecksum ≠ 0x0000 := by decide +kernel

/-- D declares 1 byte, Mx 4080. -/
theorem witness_RxByteAcceptsHeader : (frx (headerD.take 15) none).rxBuf.length + 1 = 16 ∧
    validateHeaderChecksum Config.block headerD = true ∧ (decodeHeader headerD).payloadLength.toNat = 1 ∧
    validateHeaderChecksum Config.block headerMx = true ∧ (decodeHeader headerMx).payloadLength.toNat = 4080 := by decide +kernel

/-- A's last byte, and a byte that leaves the wrong checksum. -/
theorem witness_RxByteCompletesPayload : (frx [1, 2, 3, 4] (some recordA)).rxPend = some recordA ∧
    (frx [1, 2, 3, 4] (some recordA)).rxBuf.length + 1 = recordA.payloadLength.toNat ∧
    csumOf Config.block ([1, 2, 3, 4] ++ [5]) = recordA.payloadChecksum ∧
    csumOf Config.block ([1, 2, 3, 4] ++ [6]) ≠ recordA.payloadChecksum := by decide

theorem witness_RxByteTotalWithOneOutcome : (frx (headerA.take 15) none).poweredUp = true := by decide

theorem witness_RxResetAbandonsStream : (frx (headerA.take 6) none).poweredUp = true ∧ unreset.poweredUp = false ∧
    ∃ t, exec .rxReset (frx (headerA.take 6) none) = .next t := ⟨by decide, by decide, _, rfl⟩

theorem witness_CommandFrames : State.reset.poweredUp = true ∧ (∃ t, exec .csRead State.reset = .next t) ∧
    frxCommand .csRead = false ∧ csumCommand .rxReset = false := ⟨rfl, ⟨_, rfl⟩, rfl, rfl⟩

theorem witness_UnitsDoNotInterfere : State.reset.poweredUp = true := rfl

theorem witness_AlignedFramesDelivered : State.reset.atHeaderStart ∧ (∀ f ∈ [frameA, frameZ], validFrame Config.block f = true) ∧
    ∃ t, runInstrs (rxFeed ([frameA, frameZ].flatten ++ frameA.dropLast)) State.reset = .next t :=
  ⟨reset_atHeaderStart, by decide +kernel, _, runInstrs_eq _ _⟩

theorem witness_FrameRoundTrip : 2 ^ 32 - 1 < 2 ^ 32 ∧ 2 ^ 16 - 1 < 2 ^ 16 ∧ (List.replicate 4080 (0 : Byte)).length ≤ 4080 ∧
    State.reset.atHeaderStart := ⟨by decide, by decide, by rw [List.length_replicate], reset_atHeaderStart⟩

/-- From A's header the next header start is 21 bytes on. -/
theorem witness_AlignmentByCounting : State.reset.atHeaderStart ∧ 16 ≤ frameA.length ∧ 21 ≤ frameA.length ∧
    21 = nextHeaderStart Config.block frameA ∧ 0 < 20 ∧ 20 < nextHeaderStart Config.block frameA ∧
    ∀ n, ∃ t, runInstrs (rxFeed (frameA.take n)) State.reset = .next t :=
  ⟨reset_atHeaderStart, by decide, by decide, by decide +kernel, by decide, by decide +kernel, fun _ => ⟨_, runInstrs_eq _ _⟩⟩

theorem witness_DiscardedHeaderForgotten : State.reset.atHeaderStart ∧ headerOH.length = 16 ∧ headerO.length = 16 ∧
    validateHeaderChecksum Config.block headerOH = false ∧ oversized Config.block (decodeHeader headerO) = true ∧
    ∀ bs, ∃ t, runInstrs (rxFeed bs) State.reset = .next t :=
  ⟨reset_atHeaderStart, by decide, by decide, by decide +kernel, by decide +kernel, fun _ => ⟨_, runInstrs_eq _ _⟩⟩

/-- A flip in byte 13 of A, and one in byte 14 and in the last byte. -/
theorem witness_FlippedFrameDropped : State.reset.atHeaderStart ∧ validFrame Config.block frameA = true ∧
    13 < 14 ∧ 14 ≤ 14 ∧ 14 ≤ 20 ∧ 20 < frameA.length ∧ 7 < 8 :=
  ⟨reset_atHeaderStart, by decide +kernel, by decide⟩

theorem witness_PartialFramesWait : State.reset.atHeaderStart ∧ (headerA.take 15).length < 16 ∧
    (frx [] (some recordA)).poweredUp = true ∧ (frx [] (some recordA)).rxPend = some recordA ∧ (frx [] (some recordA)).rxBuf = [] ∧
    ([1, 2, 3, 4] : List Byte).length < recordA.payloadLength.toNat := ⟨reset_atHeaderStart, by decide⟩

theorem witness_ZeroBytesAreFrames : State.reset.atHeaderStart := reset_atHeaderStart

theorem witness_IncrementalReceiverRefines : State.reset.atHeaderStart := reset_atHeaderStart

theorem witness_StepRunsDecodedCommand : (issued [.command 0x905] State.reset).port = .command 0x905 :: [] ∧
    decode 0x905 = .instr (.rxByte 5) ∧ Instr.wf (.rxByte 5) = true ∧
    (issued [.command 0x401] State.reset).port = .command 0x401 :: [] ∧ decode 0x401 = .reserved 0x401 ∧
    (issued [.reset] unreset).port = ⟨true, none⟩ :: [] := by decide

theorem witness_CommandStreamRunsInOrder :
    (issued (commandEvents [.csUpdate 1, .csRead]) State.reset).port = commandEvents [.csUpdate 1, .csRead] ++ [] := by decide

/-- A command and a reserved word. -/
theorem witness_CommandBeforeResetFaults : unreset.poweredUp = false ∧ (issued [.command 0x905] unreset).port = .command 0x905 :: [] ∧
    (issued [.command 0x401] unreset).port = .command 0x401 :: [] := by decide

/-- With a delivery. -/
theorem witness_OverlapAndReentryRefused :
    let s := issued [⟨false, some ⟨0x905, [0x100], [0x900]⟩⟩] (frx [1, 2, 3, 4] (some recordA))
    s.poweredUp = true ∧ s.port = ⟨false, some ⟨0x905, [0x100], [0x900]⟩⟩ :: [] ∧ ∃ t, runWord 0x905 { s with port := [] } = .next t ∧
      s.deliveries.length < t.deliveries.length :=
  ⟨rfl, rfl, _, runWord_instr (i := .rxByte 5) (by decide) _, by decide⟩

theorem witness_PartialResetsMatchReset : (csum 0xFFFF 0xAB).poweredUp = true ∧ unreset.poweredUp = false := by decide

theorem witness_IdleBlockHoldsState : State.reset.port = [] ∧ (issued [.idle] State.reset).port = .idle :: [] := by decide

theorem witness_MarksNeverCleared : ∃ t, step (issued [.reset] { unreset with fault := [.notReset 0x905] }) = .next t := ⟨_, rfl⟩

theorem witness_DeliveriesOnlyGrow : (issued [.command 0x905] State.reset).port = ⟨false, some ⟨0x905, [], []⟩⟩ :: [] ∧
    ∃ t, step (issued [.command 0x905] State.reset) = .next t := ⟨rfl, _, rfl⟩

/-- The 16th byte of A's header. -/
theorem witness_PendingHeaderComesFromAcceptance :
    (nextOf (step (issued [.command 0x902] (frx (headerA.take 15) none)))).map (·.rxPend) = some (some recordA) ∧
      (frx (headerA.take 15) none).rxPend ≠ some recordA := by decide +kernel

/-- The ends of R8's range, and a value outside at each end. -/
theorem witness_BadConfigurationRefused : (16 ≤ (⟨0, 16⟩ : Config).maxFrameSize ∧ (⟨0, 16⟩ : Config).maxFrameSize ≤ 2 ^ 32 - 1 + 16) ∧
    (⟨0, 2 ^ 32 + 15⟩ : Config).maxFrameSize ≤ 2 ^ 32 - 1 + 16 ∧ ¬16 ≤ (⟨0, 15⟩ : Config).maxFrameSize ∧
    ¬(⟨0, 2 ^ 32 + 16⟩ : Config).maxFrameSize ≤ 2 ^ 32 - 1 + 16 := by decide

theorem witness_BlocksAreIndependent : [unreset, State.reset][1]? = some State.reset ∧ 0 ≠ 1 := by decide

theorem witness_StepKeepsInvariant : State.Inv (frx (headerA.take 15) none) ∧
    ∃ t, step (issued [.command 0x902] (frx (headerA.take 15) none)) = .next t :=
  ⟨fun _ => ⟨by show 15 ≤ 15; decide, by simp [frx, State.reset], by simp [frx, State.reset]⟩, _, rfl⟩

/-- One record for each row of R108: OH, O, Zb, and A's payload with its last byte 06; and none, at A's 16th byte. -/
theorem witness_DiscardRecordsFollowTable : (frx (headerOH.take 15) none).Inv ∧ (frx [1, 2, 3, 4] (some recordA)).Inv ∧
    (nextOf (exec (.rxByte 0x00) (frx (headerOH.take 15) none))).map (·.discardLog) = some [(1, 16)] ∧
    (nextOf (exec (.rxByte 0x00) (frx (headerO.take 15) none))).map (·.discardLog) = some [(2, 16)] ∧
    (nextOf (exec (.rxByte 0x01) (frx (frameZb.take 15) none))).map (·.discardLog) = some [(3, 16)] ∧
    (nextOf (exec (.rxByte 0x06) (frx [1, 2, 3, 4] (some recordA)))).map (·.discardLog) = some [(3, 21)] ∧
    (nextOf (exec (.rxByte 0x02) (frx (headerA.take 15) none))).map (·.discardLog) = some [] := by
  refine ⟨fun _ => ⟨by show 15 ≤ 15; decide, by simp [frx, State.reset], by simp [frx, State.reset]⟩,
    fun _ => ⟨⟨⟨by decide, by decide +kernel⟩, by decide, by decide⟩, by simp [frx, State.reset], by simp [frx, State.reset]⟩, ?_⟩
  decide +kernel

/-- At reset, and with the 16 bytes of A's header fed. -/
theorem witness_ReachableBuffersBounded : (Reachable State.reset ∧ State.reset.poweredUp = true ∧ State.reset.rxPend = none) ∧
    ∃ t, Reachable t ∧ t.poweredUp = true ∧ t.rxPend = some recordA := by
  have hr : Reachable (issued (commandEvents (rxFeed headerA)) State.reset) := .hostIssues _ .reset
  have h : (nextOf (Sys2Proof.core.run 16 (issued (commandEvents (rxFeed headerA)) State.reset))).map (fun t => (t.poweredUp, t.rxPend)) =
      some (true, some recordA) := by decide +kernel
  refine ⟨⟨.reset, rfl, rfl⟩, ?_⟩
  cases ho : Sys2Proof.core.run 16 (issued (commandEvents (rxFeed headerA)) State.reset) with
  | next t =>
    rw [ho] at h
    have hp := Prod.mk.inj (Option.some.inj h)
    exact ⟨t, reachable_run hr ho, hp.1, hp.2⟩
  | fault r => rw [ho] at h; simp [nextOf] at h
  | refused r => rw [ho] at h; simp [nextOf] at h

end Sys2Proof.Tests
end

section
/-! The scope of the block (spec/00_scope.md): the constraints on a configuration (R8), and what one step takes from the host (R13). -/

namespace Sys2Proof.Machine

/-! ### The constraints of R8 -/

theorem Config.valid_iff (c : Config) : c.valid = true ↔ 16 ≤ c.maxFrameSize ∧ c.maxFrameSize ≤ 2 ^ 32 - 1 + 16 := by
  simp [Config.valid]

theorem configured_of_valid {c : Config} (h : c.valid = true) (o : Host.Outcome State Fault Refusal) : configured c o = o :=
  if_pos h

theorem configured_of_not_valid {c : Config} (h : ¬c.valid = true) (o : Host.Outcome State Fault Refusal) :
    configured c o = .refused .configOutsideConstraints :=
  if_neg h

/-- MAX_PAYLOAD fits the header's 32-bit length field: this is what the upper constraint is for (R8). -/
theorem Config.maxPayload_lt_of_valid {c : Config} (h : c.valid = true) : c.maxPayload < 2 ^ 32 := by
  obtain ⟨-, hmax⟩ := (Config.valid_iff c).mp h
  simp only [Config.maxPayload, headerSize_eq]
  omega

theorem bufCap_block : Config.block.bufCap = 4080 := rfl

/-! ### One step by the host's next event -/

theorem step_of_port_cons {s : State} {e : HostEvent} {rest : List HostEvent} (h : s.port = e :: rest) :
    step s = takeEvent e { s with port := rest } := by
  simp only [step, portStep, h, configured_block]

/-- Nothing overlaps a plain command, so its step is the word's own effect (R13). -/
theorem step_command {s : State} {cw : CmdWord} {rest : List HostEvent} (h : s.port = .command cw :: rest) :
    step s = runWord cw { s with port := rest } :=
  (step_of_port_cons h).trans (takeIssue_plain cw _)

/-- An asserted `rst` wins over whatever is issued with it (70_reset_and_hazards.md R127). -/
theorem step_rst {s : State} {q : Option Issue} {rest : List HostEvent} (h : s.port = ⟨true, q⟩ :: rest) :
    step s = .next { s.assertRst with port := rest } :=
  step_of_port_cons h

/-- The step is total: no state of the block makes it stop. -/
theorem step_next (s : State) : ∃ t, step s = .next t := by
  obtain ⟨-, h⟩ | ⟨_, _, -, h⟩ | ⟨_, -, h⟩ | ⟨_, _, _, -, -, h⟩ := step_cases s
  all_goals exact ⟨_, h⟩

/-! ### The statements -/

/-- Settles O55: `Config.valid` is R8's range, and `configured` refuses exactly outside it; the step is total by its inversion lemma. -/
theorem badConfigurationRefused : Obligations.BadConfigurationRefused := by
  refine ⟨fun c o => ?_, rfl, rfl, maxPayload_block, bufCap_block, step_next⟩
  rw [← Config.valid_iff]
  exact ⟨fun h => ⟨configured_of_valid h o, Config.maxPayload_lt_of_valid h⟩, fun h => configured_of_not_valid h o⟩

/-- Settles O44: the step of a plain command is `runWord` of its word, which is by what the word decodes to; `rst` wins. -/
theorem stepRunsDecodedCommand : Obligations.StepRunsDecodedCommand := by
  intro s rest
  refine ⟨fun cw i hp hd _ => ?_, fun cw hp hd => ?_, fun q hp => step_rst hp⟩
  · exact (step_command hp).trans (runWord_instr hd _)
  · exact (step_command hp).trans (runWord_reserved hd _)

end Sys2Proof.Machine
end

section
/-! The two units of a block (spec/10_state.md R15 to R18): which part of the state each command reads and writes. -/

namespace Sys2Proof.Machine

/-! ### The FRX part of an operation's result -/

@[simp] theorem State.bufAppend_frxPart (s : State) (b : Byte) :
    (s.bufAppend b).frxPart = (s.rxBuf ++ [b], s.rxPend, s.deliveries, s.discards) := rfl

@[simp] theorem State.discard_frxPart (s : State) (r : DiscardReason) (n : Nat) :
    (s.discard r n).frxPart = ([], none, s.deliveries, s.discards ++ [⟨r, n⟩]) := rfl

@[simp] theorem State.deliver_frxPart (s : State) (p : Packet) :
    (s.deliver p).frxPart = ([], none, s.deliveries ++ [p], s.discards) := rfl

@[simp] theorem State.acceptHeader_frxPart (s : State) (hd : Header) :
    (s.bufClear.setPend (some hd)).frxPart = ([], some hd, s.deliveries, s.discards) := rfl

@[simp] theorem State.frxClear_frxPart (s : State) : s.frxClear.frxPart = ([], none, s.deliveries, s.discards) := rfl

theorem State.frxPart_eq_iff {s t : State} :
    t.frxPart = s.frxPart ↔
      t.rxBuf = s.rxBuf ∧ t.rxPend = s.rxPend ∧ t.deliveries = s.deliveries ∧ t.discards = s.discards := by
  simp [State.frxPart]

theorem State.csumPart_eq_iff {s t : State} :
    t.csumPart = s.csumPart ↔ t.csValue = s.csValue ∧ t.csPrev = s.csPrev ∧ t.results = s.results := by
  simp [State.csumPart]

/-! ### A unit's command writes its own part and reads no other -/

theorem headerComplete_csumPart (c : Config) (s : State) : (headerComplete c s).csumPart = s.csumPart := by
  obtain ⟨-, h⟩ | ⟨-, -, h⟩ | ⟨-, -, -, -, h⟩ | ⟨-, -, -, -, h⟩ | ⟨-, -, -, h⟩ := headerComplete_cases c s
  all_goals rw [h]; rfl

theorem rxByteEffect_csumPart (c : Config) (b : Byte) (s : State) : (rxByteEffect c b s).csumPart = s.csumPart := by
  obtain ⟨-, -, h⟩ | ⟨-, -, h⟩ | ⟨_, -, -, h⟩ | ⟨_, -, -, -, h⟩ | ⟨_, -, -, -, h⟩ := rxByteEffect_cases c b s
  case inr.inl => rw [h, headerComplete_csumPart]; rfl
  all_goals rw [h]; rfl

theorem headerComplete_frxPart_congr (c : Config) {s u : State} (h : s.frxPart = u.frxPart) :
    (headerComplete c s).frxPart = (headerComplete c u).frxPart := by
  obtain ⟨hbuf, -, hdel, hdis⟩ := State.frxPart_eq_iff.mp h
  simp only [headerComplete, apply_ite State.frxPart, State.discard_frxPart, State.deliver_frxPart, State.acceptHeader_frxPart,
    hbuf, hdel, hdis]

theorem payloadComplete_frxPart_congr (c : Config) (hd : Header) {s u : State} (h : s.frxPart = u.frxPart) :
    (payloadComplete c hd s).frxPart = (payloadComplete c hd u).frxPart := by
  obtain ⟨hbuf, -, hdel, hdis⟩ := State.frxPart_eq_iff.mp h
  simp only [payloadComplete, apply_ite State.frxPart, State.discard_frxPart, State.deliver_frxPart, hbuf, hdel, hdis]

/-- RX.BYTE in AwaitingHeader (42_unpacker.md R88). -/
theorem rxByteEffect_of_none (c : Config) (b : Byte) {s : State} (hp : s.rxPend = none) :
    rxByteEffect c b s = if s.rxBuf.length + 1 < 16 then s.bufAppend b else headerComplete c (s.bufAppend b) := by
  simp [rxByteEffect, hp, headerSize_eq]

/-- RX.BYTE in AwaitingPayload (42_unpacker.md R88). -/
theorem rxByteEffect_of_some (c : Config) (b : Byte) {s : State} {hd : Header} (hp : s.rxPend = some hd) :
    rxByteEffect c b s =
      if s.rxBuf.length + 1 < hd.payloadLength.toNat then s.bufAppend b else payloadComplete c hd (s.bufAppend b) := by
  simp [rxByteEffect, hp]

theorem rxByteEffect_frxPart_congr (c : Config) (b : Byte) {s u : State} (h : s.frxPart = u.frxPart) :
    (rxByteEffect c b s).frxPart = (rxByteEffect c b u).frxPart := by
  obtain ⟨hbuf, hpend, hdel, hdis⟩ := State.frxPart_eq_iff.mp h
  have happ : (s.bufAppend b).frxPart = (u.bufAppend b).frxPart := by simp [hbuf, hpend, hdel, hdis]
  cases hp : u.rxPend with
  | none =>
    rw [rxByteEffect_of_none c b (hpend.trans hp), rxByteEffect_of_none c b hp, hbuf]
    split
    · exact happ
    · exact headerComplete_frxPart_congr c happ
  | some hd =>
    rw [rxByteEffect_of_some c b (hpend.trans hp), rxByteEffect_of_some c b hp, hbuf]
    split
    · exact happ
    · exact payloadComplete_frxPart_congr c hd happ

theorem effect_frxPart_of_not_frx (i : Instr) (s : State) (h : frxCommand i = false) : (effect i s).frxPart = s.frxPart := by
  cases i with
  | rxReset | rxByte => simp [frxCommand] at h
  | _ => rfl

theorem effect_csumPart_of_not_csum (i : Instr) (s : State) (h : csumCommand i = false) : (effect i s).csumPart = s.csumPart := by
  cases i with
  | csReset | csUpdate | csRead => simp [csumCommand] at h
  | rxByte b => exact rxByteEffect_csumPart Config.block b s
  | nop | rxReset => rfl

theorem effect_frxPart_congr (i : Instr) {s u : State} (h : s.frxPart = u.frxPart) :
    (effect i s).frxPart = (effect i u).frxPart := by
  cases i with
  | rxByte b => exact rxByteEffect_frxPart_congr Config.block b h
  | rxReset =>
    obtain ⟨-, -, hdel, hdis⟩ := State.frxPart_eq_iff.mp h
    simp [effect, hdel, hdis]
  | _ => exact h

theorem effect_csumPart_congr (i : Instr) {s u : State} (h : s.csumPart = u.csumPart) :
    (effect i s).csumPart = (effect i u).csumPart := by
  obtain ⟨hval, hprev, hres⟩ := State.csumPart_eq_iff.mp h
  cases i with
  | csReset | csUpdate | csRead => simp [effect, State.csumPart_eq_iff, hval, hprev, hres]
  | nop | rxReset | rxByte =>
    rw [effect_csumPart_of_not_csum _ s rfl, effect_csumPart_of_not_csum _ u rfl, h]

/-- Only CS.READ returns a value (30_encoding.md R61). -/
theorem effect_results {i : Instr} (s : State) (h : i ≠ .csRead) : (effect i s).results = s.results := by
  cases i with
  | csRead => exact absurd rfl h
  | rxByte b =>
    obtain ⟨-, -, hres⟩ := State.csumPart_eq_iff.mp (rxByteEffect_csumPart Config.block b s)
    exact hres
  | _ => rfl

/-! ### Command sequences, seen from one unit -/

theorem effect_poweredUp (i : Instr) (s : State) : (effect i s).poweredUp = s.poweredUp := by
  obtain ⟨-, -, -, hpow⟩ := effect_keeps i s
  exact hpow

theorem afterInstrs_cons {s : State} (h : s.poweredUp = true) (i : Instr) (is : List Instr) :
    afterInstrs (i :: is) s = afterInstrs is (effect i s) := by
  simp [afterInstrs, h]

/-- A part of the state that the commands in `own` determine from itself, and that no other command writes, is after any sequence what
it is after the sequence's own commands alone. -/
theorem afterInstrs_filter_part {α : Type} (part : State → α) (own : Instr → Bool)
    (congr : ∀ i {s u : State}, part s = part u → part (effect i s) = part (effect i u))
    (frame : ∀ i s, own i = false → part (effect i s) = part s)
    (is : List Instr) {s u : State} (hs : s.poweredUp = true) (hu : u.poweredUp = true) (h : part s = part u) :
    part (afterInstrs is s) = part (afterInstrs (is.filter own) u) := by
  induction is generalizing s u with
  | nil => exact h
  | cons i is ih =>
    have hs' : (effect i s).poweredUp = true := (effect_poweredUp i s).trans hs
    rw [afterInstrs_cons hs]
    cases hi : own i with
    | true =>
      rw [List.filter_cons_of_pos hi, afterInstrs_cons hu]
      exact ih hs' ((effect_poweredUp i u).trans hu) (congr i h)
    | false =>
      rw [List.filter_cons_of_neg (by simp [hi])]
      exact ih hs' hu ((frame i s hi).trans h)

/-! ### The hidden previous byte -/

/-- The update's XOR with the byte pair cancels everything but the previous byte. -/
theorem csumStep_fst_inj_prev {c : Config} {v : Half} {p q b : Byte} :
    (csumStep c v p b).1 = (csumStep c v q b).1 ↔ p = q := by
  rw [csumStep_fst, csumStep_fst, BitVec.xor_right_inj, BitVec.append_left_inj]

/-! ### The statements -/

/-- Settles O33, by what each command's effect keeps of the marks, the queue and the other unit. -/
theorem commandFrames : Obligations.CommandFrames := by
  intro i s t hs ht
  rw [exec_of_poweredUp i hs] at ht
  injection ht with ht
  subst ht
  obtain ⟨hfault, hrefused, hport, hpow⟩ := effect_keeps i s
  refine ⟨hpow.trans hs, hport, hfault, hrefused, effect_frxPart_of_not_frx i s, effect_csumPart_of_not_csum i s,
    effect_results s, ?_, ?_⟩
  all_goals rintro rfl; exact ⟨rfl, rfl⟩

/-- Settles O35: each unit's part is determined by itself under its own commands and is written by no other. -/
theorem unitsDoNotInterfere : Obligations.UnitsDoNotInterfere := by
  intro is s hs
  exact ⟨_, _, _, runInstrs_eq _ _, runInstrs_eq _ _, runInstrs_eq _ _,
    afterInstrs_filter_part State.frxPart frxCommand effect_frxPart_congr effect_frxPart_of_not_frx is hs hs rfl,
    afterInstrs_filter_part State.csumPart csumCommand effect_csumPart_congr effect_csumPart_of_not_csum is hs hs rfl⟩

/-- Settles O14: the value read is a function of `cs_value`, and the next update is injective in the previous byte. -/
theorem previousByteIsHidden : Obligations.PreviousByteIsHidden := by
  intro s p b hs hp
  have hs' : ({ s with csPrev := p } : State).poweredUp = true := hs
  refine ⟨_, _, _, _, exec_of_poweredUp .csRead hs, exec_of_poweredUp .csRead hs', rfl,
    exec_of_poweredUp (.csUpdate b) hs, exec_of_poweredUp (.csUpdate b) hs', fun h => hp ?_⟩
  exact (csumStep_fst_inj_prev.mp h).symm

end Sys2Proof.Machine
end

section
/-! What a step can change (spec/10_state.md R20, R27 to R33): outside the marks and the host's queue, only an asserted `rst` or the
effect of one decoded command. -/

namespace Sys2Proof.Machine

/-! ### Steps that change the marks and the queue only -/

/-- `t` differs from `s` at most in the marks and in what the host will issue. -/
def State.sameButMarks (s t : State) : Prop := t = { s with fault := t.fault, refused := t.refused, port := t.port }

theorem State.sameButMarks.trans {s t u : State} (hst : s.sameButMarks t) (htu : t.sameButMarks u) : s.sameButMarks u := by
  unfold State.sameButMarks at *
  rw [htu, hst]

theorem State.sameButMarks.frxPart_eq {s t : State} (h : s.sameButMarks t) : t.frxPart = s.frxPart := by
  rw [h]; rfl

theorem State.sameButMarks.poweredUp_eq {s t : State} (h : s.sameButMarks t) : t.poweredUp = s.poweredUp := by
  rw [h]

theorem sameButMarks_setPort (s : State) (p : List HostEvent) : s.sameButMarks { s with port := p } := rfl

theorem sameButMarks_refuseReserved (cw : CmdWord) (s : State) : s.sameButMarks (refuseReserved cw s) := by
  unfold refuseReserved; split <;> rfl

theorem sameButMarks_refuseOverlapping (cws : List CmdWord) (s : State) : s.sameButMarks (refuseOverlapping cws s) := by
  unfold refuseOverlapping; split <;> rfl

theorem sameButMarks_refuseReentrant (cws : List CmdWord) (s : State) : s.sameButMarks (refuseReentrant cws s) := rfl

/-- What is refused while a command is in progress changes the marks only. -/
theorem sameButMarks_refusals (q : Issue) (b : Bool) (t : State) :
    t.sameButMarks (if b then refuseReentrant q.fromConsumer (refuseOverlapping q.overlapping t)
      else refuseOverlapping q.overlapping t) := by
  cases b
  · exact sameButMarks_refuseOverlapping _ t
  · exact (sameButMarks_refuseOverlapping _ t).trans (sameButMarks_refuseReentrant _ _)

/-- A word taken at the port changes the marks only, or has the effect of the command it decodes to. -/
theorem runWord_cases {cw : CmdWord} {s t : State} (h : runWord cw s = .next t) :
    s.sameButMarks t ∨ ∃ i, decode cw = .instr i ∧ s.poweredUp = true ∧ t = effect i s := by
  cases hd : decode cw with
  | reserved w =>
    rw [runWord_reserved hd] at h
    injection h with h
    exact .inl (h ▸ sameButMarks_refuseReserved cw s)
  | instr i =>
    rw [runWord_instr hd] at h
    cases hs : s.poweredUp with
    | true =>
      rw [exec_of_poweredUp i hs] at h
      injection h with h
      exact .inr ⟨i, rfl, rfl, h.symm⟩
    | false =>
      rw [exec_of_not_poweredUp i hs] at h
      injection h with h
      exact .inl (h ▸ rfl)

/-- The inversion lemma of the step, outside the marks and the queue. -/
theorem step_effect_cases {s t : State} (h : step s = .next t) :
    s.sameButMarks t ∨
    (∃ q rest, s.port = ⟨true, q⟩ :: rest ∧ t = { s.assertRst with port := rest }) ∨
    (∃ q rest i, s.port = ⟨false, some q⟩ :: rest ∧ decode q.word = .instr i ∧ s.poweredUp = true ∧
      (effect i s).sameButMarks t) := by
  obtain ⟨-, hst⟩ | ⟨q, rest, hp, hst⟩ | ⟨rest, -, hst⟩ | ⟨q, rest, u, hp, hu, hst⟩ := step_cases s
  all_goals
    rw [hst] at h
    injection h with h
    subst h
  · exact .inl rfl
  · exact .inr (.inl ⟨q, rest, hp, rfl⟩)
  · exact .inl (sameButMarks_setPort s rest)
  · have hmarks := sameButMarks_refusals q (delivered s u) u
    obtain hsame | ⟨i, hd, hs, rfl⟩ := runWord_cases hu
    · exact .inl (((sameButMarks_setPort s rest).trans hsame).trans hmarks)
    · rw [effect_setPort] at hmarks ⊢
      exact .inr (.inr ⟨q, rest, i, hp, hd, hs, (sameButMarks_setPort (effect i s) rest).trans hmarks⟩)

/-! ### The marks only grow -/

/-- Every reason recorded in a mark of `s` is still recorded, in its place, in `t` (R30). -/
def State.marksKept (s t : State) : Prop := s.fault <+: t.fault ∧ s.refused <+: t.refused

theorem State.marksKept.trans {s t u : State} (hst : s.marksKept t) (htu : t.marksKept u) : s.marksKept u :=
  ⟨hst.1.trans htu.1, hst.2.trans htu.2⟩

theorem marksKept_of_eq {s t : State} (hf : t.fault = s.fault) (hr : t.refused = s.refused) : s.marksKept t :=
  ⟨hf ▸ List.prefix_rfl, hr ▸ List.prefix_rfl⟩

theorem marksKept_raiseFault (s : State) (f : Fault) : s.marksKept (s.raiseFault f) :=
  ⟨List.prefix_append _ _, List.prefix_rfl⟩

theorem marksKept_raiseRefusal (s : State) (r : Refusal) : s.marksKept (s.raiseRefusal r) :=
  ⟨List.prefix_rfl, List.prefix_append _ _⟩

theorem marksKept_refuseReserved (cw : CmdWord) (s : State) : s.marksKept (refuseReserved cw s) := by
  unfold refuseReserved
  split
  · exact marksKept_raiseRefusal s _
  · exact marksKept_raiseFault s _

theorem marksKept_refuseOverlapping (cws : List CmdWord) (s : State) : s.marksKept (refuseOverlapping cws s) := by
  unfold refuseOverlapping
  split
  · exact ⟨List.prefix_rfl, List.prefix_append _ _⟩
  · exact ⟨List.prefix_append _ _, List.prefix_rfl⟩

theorem marksKept_refuseReentrant (cws : List CmdWord) (s : State) : s.marksKept (refuseReentrant cws s) :=
  ⟨List.prefix_rfl, List.prefix_append _ _⟩

theorem marksKept_effect (i : Instr) (s : State) : s.marksKept (effect i s) := by
  obtain ⟨hf, hr, -, -⟩ := effect_keeps i s
  exact marksKept_of_eq hf hr

theorem marksKept_runWord {cw : CmdWord} {s t : State} (h : runWord cw s = .next t) : s.marksKept t := by
  cases hd : decode cw with
  | reserved w =>
    rw [runWord_reserved hd] at h
    injection h with h
    exact h ▸ marksKept_refuseReserved cw s
  | instr i =>
    rw [runWord_instr hd, exec_eq_command, command_eq] at h
    injection h with h
    subst h
    split
    · exact marksKept_effect i s
    · exact marksKept_raiseFault s _

/-- Settles O52: every branch of the step, `rst` included, keeps the marks or appends to them. -/
theorem marksNeverCleared : Obligations.MarksNeverCleared := by
  intro s t h
  obtain ⟨-, hst⟩ | ⟨q, rest, -, hst⟩ | ⟨rest, -, hst⟩ | ⟨q, rest, u, -, hu, hst⟩ := step_cases s
  all_goals
    rw [hst] at h
    injection h with h
    subst h
  · exact marksKept_of_eq rfl rfl
  · exact marksKept_of_eq rfl rfl
  · exact marksKept_of_eq rfl rfl
  · have hword : s.marksKept u := (marksKept_of_eq rfl rfl : s.marksKept { s with port := rest }).trans (marksKept_runWord hu)
    have hoverlap := hword.trans (marksKept_refuseOverlapping q.overlapping u)
    split
    · exact hoverlap.trans (marksKept_refuseReentrant _ _)
    · exact hoverlap

/-! ### Deliveries and the pending header come from RX.BYTE -/

theorem headerComplete_deliveries (c : Config) (s : State) :
    (headerComplete c s).deliveries = s.deliveries ∨ ∃ p, (headerComplete c s).deliveries = s.deliveries ++ [p] := by
  obtain ⟨-, h⟩ | ⟨-, -, h⟩ | ⟨-, -, -, -, h⟩ | ⟨-, -, -, -, h⟩ | ⟨-, -, -, h⟩ := headerComplete_cases c s
  case inr.inr.inl => exact .inr ⟨_, by rw [h]; rfl⟩
  all_goals exact .inl (by rw [h]; rfl)

theorem rxByteEffect_deliveries (c : Config) (b : Byte) (s : State) :
    (rxByteEffect c b s).deliveries = s.deliveries ∨ ∃ p, (rxByteEffect c b s).deliveries = s.deliveries ++ [p] := by
  obtain ⟨-, -, h⟩ | ⟨-, -, h⟩ | ⟨_, -, -, h⟩ | ⟨_, -, -, -, h⟩ | ⟨_, -, -, -, h⟩ := rxByteEffect_cases c b s
  case inr.inl => rw [h]; exact headerComplete_deliveries c (s.bufAppend b)
  case inr.inr.inr.inl => exact .inr ⟨_, by rw [h]; rfl⟩
  all_goals exact .inl (by rw [h]; rfl)

theorem effect_deliveries (i : Instr) (s : State) :
    (effect i s).deliveries = s.deliveries ∨ ∃ b p, i = .rxByte b ∧ (effect i s).deliveries = s.deliveries ++ [p] := by
  cases i with
  | rxByte b =>
    obtain h | ⟨p, h⟩ := rxByteEffect_deliveries Config.block b s
    · exact .inl h
    · exact .inr ⟨b, p, rfl, h⟩
  | _ => exact .inl rfl

/-- Settles O53: without `rst` a step leaves FRX, or has one command's effect, and only RX.BYTE's delivers. -/
theorem deliveriesOnlyGrow : Obligations.DeliveriesOnlyGrow := by
  intro s t q rest hp hst
  obtain hsame | ⟨_, _, hp', -⟩ | ⟨x, _, i, hp', hd, hs, heff⟩ := step_effect_cases hst
  · obtain ⟨-, -, hdel, -⟩ := State.frxPart_eq_iff.mp hsame.frxPart_eq
    exact .inl hdel
  · simp [hp] at hp'
  · obtain ⟨-, -, hdel, -⟩ := State.frxPart_eq_iff.mp heff.frxPart_eq
    rw [hp, List.cons.injEq, HostEvent.mk.injEq] at hp'
    obtain ⟨⟨-, hq⟩, -⟩ := hp'
    rw [hdel]
    obtain h | ⟨b, p, rfl, h⟩ := effect_deliveries i s
    · exact .inl h
    · exact .inr ⟨x, b, p, hq, hd, hs, h⟩

/-- What 42_unpacker.md R93 asks of a header before `rx_pend` holds it. -/
theorem headerComplete_rxPend {c : Config} {s : State} {hd : Header} (h : (headerComplete c s).rxPend = some hd) :
    hd = decodeHeader s.rxBuf ∧ validateHeaderChecksum c s.rxBuf = true ∧ oversized c hd = false ∧ hd.payloadLength ≠ 0 ∧
      (headerComplete c s).rxBuf = [] := by
  obtain ⟨-, heq⟩ | ⟨-, -, heq⟩ | ⟨-, -, -, -, heq⟩ | ⟨-, -, -, -, heq⟩ | ⟨hsum, hsize, hlen, heq⟩ := headerComplete_cases c s
  case inr.inr.inr.inr =>
    rw [heq] at h ⊢
    obtain rfl : decodeHeader s.rxBuf = hd := by simpa using h
    exact ⟨rfl, hsum, hsize, hlen, rfl⟩
  all_goals simp [heq] at h

/-- A header that RX.BYTE leaves in `rx_pend` was there before, or the byte completed it. -/
theorem rxByteEffect_rxPend {c : Config} {b : Byte} {s : State} {hd : Header} (h : (rxByteEffect c b s).rxPend = some hd) :
    s.rxPend = some hd ∨
    (s.rxPend = none ∧ 16 ≤ s.rxBuf.length + 1 ∧ rxByteEffect c b s = headerComplete c (s.bufAppend b)) := by
  obtain ⟨-, -, heq⟩ | hdone | ⟨_, -, -, heq⟩ | ⟨_, -, -, -, heq⟩ | ⟨_, -, -, -, heq⟩ := rxByteEffect_cases c b s
  case inr.inl => exact .inr hdone
  case inr.inr.inr.inl => simp [heq] at h
  case inr.inr.inr.inr => simp [heq] at h
  all_goals exact .inl (by simpa [heq] using h)

/-- No command but RX.BYTE writes a header into `rx_pend` (R20). -/
theorem effect_rxPend {i : Instr} {s : State} {hd : Header} (h : (effect i s).rxPend = some hd) :
    s.rxPend = some hd ∨ ∃ b, i = .rxByte b := by
  cases i with
  | rxByte b => exact .inr ⟨b, rfl⟩
  | rxReset => simp [effect] at h
  | _ => exact .inl h

theorem oversized_eq_false_iff (c : Config) (hd : Header) : oversized c hd = false ↔ hd.payloadLength.toNat ≤ c.maxPayload := by
  simp [oversized]

theorem payloadLength_pos {hd : Header} (h : hd.payloadLength ≠ 0) : 1 ≤ hd.payloadLength.toNat :=
  Nat.one_le_iff_ne_zero.mpr fun h0 => h (BitVec.eq_of_toNat_eq h0)

/-- Settles O54: a header new in `rx_pend` is there by an RX.BYTE, and by its branch that completes and accepts one. -/
theorem pendingHeaderComesFromAcceptance : Obligations.PendingHeaderComesFromAcceptance := by
  intro s t hd hst ht hs
  obtain hsame | ⟨_, _, -, rfl⟩ | ⟨q, rest, i, hp, hdec, -, heff⟩ := step_effect_cases hst
  · obtain ⟨-, hpend, -, -⟩ := State.frxPart_eq_iff.mp hsame.frxPart_eq
    exact absurd (hpend ▸ ht) hs
  · simp at ht
  · obtain ⟨hbuf, hpend, -, -⟩ := State.frxPart_eq_iff.mp heff.frxPart_eq
    rw [hpend] at ht
    obtain ⟨b, rfl⟩ := (effect_rxPend ht).resolve_left hs
    obtain ⟨hnone, hlen, heq⟩ := (rxByteEffect_rxPend ht).resolve_left hs
    rw [effect, heq] at ht hbuf
    obtain ⟨rfl, hsum, hsize, hpos, hclear⟩ := headerComplete_rxPend ht
    exact ⟨q, b, rest, hp, hdec, hnone, by omega, rfl, hsum, payloadLength_pos hpos, (oversized_eq_false_iff _ _).mp hsize,
      hbuf.trans hclear⟩

/-! ### Several blocks -/

theorem stepBlock_of_getElem? {k : Nat} {blocks : List State} {s t : State} (hk : blocks[k]? = some s) (ht : step s = .next t) :
    stepBlock k blocks = .next (blocks.set k t) := by
  simp only [stepBlock, hk, ht]

/-- Settles O56: a step of block `k` sets entry `k` of the list. -/
theorem blocksAreIndependent : Obligations.BlocksAreIndependent := by
  intro blocks k s hk
  obtain ⟨t, ht⟩ := step_next s
  obtain ⟨hlt, -⟩ := List.getElem?_eq_some_iff.mp hk
  exact ⟨t, blocks.set k t, ht, stepBlock_of_getElem? hk ht, List.length_set, List.getElem?_set_self hlt,
    fun j hj => List.getElem?_set_ne hj.symm⟩

end Sys2Proof.Machine
end

section
/-! The invariant of a block that has been reset (spec/10_state.md R19, R21, R23; 41_header_packet.md R81; 60_exceptions.md R108). -/

namespace Sys2Proof.Machine

/-- The part of the invariant that speaks of the outcomes of R27; the bytes still buffered have no part in it, so buffering one keeps it. -/
def logsOk (c : Config) (s : State) : Prop := (∀ p ∈ s.deliveries, packetDelivered c p) ∧ ∀ d ∈ s.discards, discardSized c d

theorem State.inv_iff (s : State) : s.Inv ↔ (s.poweredUp = true → frxInv Config.block s ∧ logsOk Config.block s) := Iff.rfl

theorem frxInv_of_none {c : Config} {s : State} (hp : s.rxPend = none) (hl : s.rxBuf.length ≤ 15) : frxInv c s := by
  simpa [frxInv, hp, headerSize_eq] using hl

theorem frxInv_of_some {c : Config} {s : State} {hd : Header} (hp : s.rxPend = some hd) (hacc : headerAccepted c hd)
    (hl : s.rxBuf.length < hd.payloadLength.toNat) : frxInv c s := by
  simp only [frxInv, hp]
  exact ⟨hacc, by omega, by omega⟩

theorem bounds_of_frxInv_some {c : Config} {s : State} {hd : Header} (h : frxInv c s) (hp : s.rxPend = some hd) :
    headerAccepted c hd ∧ s.rxBuf.length < hd.payloadLength.toNat := by
  simp only [frxInv, hp] at h
  obtain ⟨hacc, hpos, hlen⟩ := h
  exact ⟨hacc, by omega⟩

/-- The invariant speaks of the FRX part and of `powered_up` only. -/
theorem inv_of_frxPart_eq {s t : State} (hpart : t.frxPart = s.frxPart) (hpow : t.poweredUp = s.poweredUp) (h : s.Inv) : t.Inv := by
  obtain ⟨hbuf, hpend, hdel, hdis⟩ := State.frxPart_eq_iff.mp hpart
  simpa only [State.Inv, frxInv, hbuf, hpend, hdel, hdis, hpow] using h

/-! ### Every outcome of RX.BYTE keeps it -/

theorem deliver_keeps_inv {c : Config} {s : State} {p : Packet} (h : logsOk c s) (hp : packetDelivered c p) :
    frxInv c (s.deliver p) ∧ logsOk c (s.deliver p) := by
  obtain ⟨hdel, hdis⟩ := h
  refine ⟨frxInv_of_none rfl (by simp), ?_, hdis⟩
  rw [State.deliver_deliveries, List.forall_mem_append, List.forall_mem_singleton]
  exact ⟨hdel, hp⟩

theorem discard_keeps_inv {c : Config} {s : State} {r : DiscardReason} {n : Nat} (h : logsOk c s) (hd : discardSized c ⟨r, n⟩) :
    frxInv c (s.discard r n) ∧ logsOk c (s.discard r n) := by
  obtain ⟨hdel, hdis⟩ := h
  refine ⟨frxInv_of_none rfl (by simp), hdel, ?_⟩
  rw [State.discard_discards, List.forall_mem_append, List.forall_mem_singleton]
  exact ⟨hdis, hd⟩

theorem discardSized_payloadCsum {c : Config} {n : Nat} (hmin : 16 ≤ n) (hmax : n ≤ 16 + c.maxPayload) :
    discardSized c ⟨.payloadCsum, n⟩ := ⟨hmin, hmax⟩

/-- What the header check compares with the wire is the checksum of the decoded fields with the decoded field (R78, R80). -/
theorem csumOf_headerFields_of_validate {c : Config} {h : List Byte} (hl : 16 ≤ h.length)
    (hv : validateHeaderChecksum c h = true) : csumOf c (headerFields (decodeHeader h)) = (decodeHeader h).headerChecksum := by
  have hsum : (csumOf c (h.take 12)).toNat = decodeUint (slice h 12 14) 2 := by
    simpa [validateHeaderChecksum, slice_zero] using hv
  calc csumOf c (headerFields (decodeHeader h)) = csumOf c (h.take 12) := by rw [headerFields_decodeHeader hl]
    _ = BitVec.ofNat 16 (csumOf c (h.take 12)).toNat := by rw [BitVec.ofNat_toNat, BitVec.setWidth_eq]
    _ = (decodeHeader h).headerChecksum := by rw [hsum]; rfl

theorem headerAccepted_decodeHeader {c : Config} {h : List Byte} (hl : 16 ≤ h.length) (hv : validateHeaderChecksum c h = true)
    (ho : oversized c (decodeHeader h) = false) : headerAccepted c (decodeHeader h) :=
  ⟨(oversized_eq_false_iff c _).mp ho, csumOf_headerFields_of_validate hl hv⟩

theorem packetDelivered_fromWire {c : Config} {hd : Header} {payload : List Byte} (hacc : headerAccepted c hd)
    (hl : payload.length = hd.payloadLength.toNat) (hsum : payloadChecksumOk c hd payload = true) :
    packetDelivered c (fromWire hd payload) :=
  ⟨hacc, by simpa [Packet.wf, fromWire] using hl, by simpa [payloadChecksumOk, fromWire] using hsum⟩

theorem headerComplete_keeps_inv {c : Config} {s : State} (hlogs : logsOk c s) (hl : 16 ≤ s.rxBuf.length) :
    frxInv c (headerComplete c s) ∧ logsOk c (headerComplete c s) := by
  obtain ⟨-, h⟩ | ⟨-, -, h⟩ | ⟨hv, ho, hz, hsum, h⟩ | ⟨-, -, -, -, h⟩ | ⟨hv, ho, hz, h⟩ := headerComplete_cases c s
  all_goals rw [h]
  · exact discard_keeps_inv hlogs rfl
  · exact discard_keeps_inv hlogs rfl
  · exact deliver_keeps_inv hlogs (packetDelivered_fromWire (headerAccepted_decodeHeader hl hv ho) (by simp [hz]) hsum)
  · exact discard_keeps_inv hlogs (discardSized_payloadCsum le_rfl (Nat.le_add_right _ _))
  · exact ⟨frxInv_of_some rfl (headerAccepted_decodeHeader hl hv ho) (payloadLength_pos hz), hlogs⟩

theorem rxByteEffect_keeps_inv {c : Config} (b : Byte) {s : State} (hfrx : frxInv c s) (hlogs : logsOk c s) :
    frxInv c (rxByteEffect c b s) ∧ logsOk c (rxByteEffect c b s) := by
  have hlogs' : logsOk c (s.bufAppend b) := hlogs
  have hlen : (s.rxBuf ++ [b]).length = s.rxBuf.length + 1 := by simp
  obtain ⟨hp, hl, h⟩ | ⟨-, hl, h⟩ | ⟨hd, hp, hl, h⟩ | ⟨hd, hp, hl, hsum, h⟩ | ⟨hd, hp, hl, -, h⟩ := rxByteEffect_cases c b s
  all_goals rw [h]
  · exact ⟨frxInv_of_none hp (by rw [State.bufAppend_rxBuf]; omega), hlogs'⟩
  · exact headerComplete_keeps_inv hlogs' (by rw [State.bufAppend_rxBuf]; omega)
  all_goals obtain ⟨hacc, hbuf⟩ := bounds_of_frxInv_some hfrx hp
  · exact ⟨frxInv_of_some hp hacc (by rw [State.bufAppend_rxBuf]; omega), hlogs'⟩
  · exact deliver_keeps_inv hlogs' (packetDelivered_fromWire hacc (by omega) hsum)
  · obtain ⟨hmax, -⟩ := hacc
    exact discard_keeps_inv hlogs' (discardSized_payloadCsum (by omega) (by omega))

theorem effect_keeps_inv (i : Instr) {s : State} (h : s.Inv) : (effect i s).Inv := by
  cases i with
  | rxByte b =>
    intro hpow
    obtain ⟨hfrx, hlogs⟩ := (State.inv_iff s).mp h ((effect_poweredUp _ s).symm.trans hpow)
    exact rxByteEffect_keeps_inv b hfrx hlogs
  | rxReset =>
    intro hpow
    obtain ⟨-, hlogs⟩ := (State.inv_iff s).mp h hpow
    exact ⟨frxInv_of_none rfl (by simp [effect]), hlogs⟩
  | nop | csReset | csUpdate | csRead => exact inv_of_frxPart_eq rfl rfl h

/-! ### The statements -/

/-- Settles O49, by the fields of the two states. -/
theorem resetStateValues : Obligations.ResetStateValues :=
  ⟨rfl, rfl, rfl, rfl, State.fsm_of_none rfl, rfl, rfl, rfl, rfl⟩

/-- Settles O57: nothing is buffered, delivered or discarded. -/
theorem resetMeetsInvariant : Obligations.ResetMeetsInvariant :=
  fun _ => ⟨frxInv_of_none rfl (Nat.zero_le _), List.forall_mem_nil _, List.forall_mem_nil _⟩

/-- Settles O58: a step changes FRX by `rst`, which gives the values of State.reset, or by one command's effect, which keeps the
invariant. -/
theorem stepKeepsInvariant : Obligations.StepKeepsInvariant := by
  intro s t hs hst
  obtain hsame | ⟨_, _, -, rfl⟩ | ⟨_, _, i, -, -, -, heff⟩ := step_effect_cases hst
  · exact inv_of_frxPart_eq hsame.frxPart_eq hsame.poweredUp_eq hs
  · exact inv_of_frxPart_eq (s := State.reset) rfl rfl resetMeetsInvariant
  · exact inv_of_frxPart_eq heff.frxPart_eq heff.poweredUp_eq (effect_keeps_inv i hs)

end Sys2Proof.Machine
end

section
/-! The bytes a packet is sent as, and the checksum fields among them (spec/20_memory.md R41; 41_header_packet.md R80, R83, R85). -/

namespace Sys2Proof.Machine

/-! ### Where EncodeHeader puts its fields, with anything after the header -/

theorem take_encodeHeader_append (c : Config) (hd : Header) (r : List Byte) :
    (encodeHeader c hd ++ r).take 12 = headerFields hd := by
  rw [encodeHeader, List.append_assoc, List.append_assoc, List.take_left' (headerFields_length hd)]

theorem slice_encodeHeader_append_headerChecksum (c : Config) (hd : Header) (r : List Byte) :
    slice (encodeHeader c hd ++ r) 12 14 = uintBytes 2 (csumOf c (headerFields hd)).toNat := by
  rw [encodeHeader, List.append_assoc]
  exact slice_append_middle _ _ _ (headerFields_length hd) (uintBytes_length 2 _)

theorem slice_encodeHeader_append_payloadChecksum (c : Config) (hd : Header) (r : List Byte) :
    slice (encodeHeader c hd ++ r) 14 16 = uintBytes 2 hd.payloadChecksum.toNat := by
  rw [encodeHeader]
  exact slice_append_middle _ _ _ (by simp) (uintBytes_length 2 _)

/-- A 16-bit field reads back as the value written. -/
theorem decodeUint_uintBytes_half (v : Half) : decodeUint (uintBytes 2 v.toNat) 2 = v.toNat := by
  rw [decodeUint_uintBytes]
  exact Nat.mod_eq_of_lt v.isLt

/-- Decoding undoes EncodeHeader but for the stored header checksum, which it computes afresh (R80). -/
theorem decodeHeader_encodeHeader (c : Config) (hd : Header) :
    decodeHeader (encodeHeader c hd) = { hd with headerChecksum := csumOf c (headerFields hd) } := by
  have h := decodeHeader_fields { hd with headerChecksum := csumOf c (headerFields hd) } []
  rwa [List.append_nil] at h

theorem validateHeaderChecksum_encodeHeader (c : Config) (hd : Header) :
    validateHeaderChecksum c (encodeHeader c hd) = true := by
  have htake := take_encodeHeader_append c hd []
  have hfield := slice_encodeHeader_append_headerChecksum c hd []
  rw [List.append_nil] at htake hfield
  rw [validateHeaderChecksum, slice_zero, htake, hfield, decodeUint_uintBytes_half, beq_self_eq_true]

/-! ### A sent packet as a frame -/

/-- The header is written with a right header checksum and at its full length, so ValidFrame of a sent packet comes down to the
length bound and the payload checksum (R85). -/
theorem validFrame_toBytes_iff (c : Config) {p : Packet} (hwf : p.wf = true) :
    validFrame c (toBytes c p) = true ↔
      p.header.payloadLength.toNat ≤ c.maxPayload ∧ csumOf c p.payload = p.header.payloadChecksum := by
  have hhdr : slice (toBytes c p) 0 16 = encodeHeader c p.header := by
    rw [slice_zero, toBytes, List.take_left' (encodeHeader_length c _)]
  have hpay : (toBytes c p).drop 16 = p.payload := List.drop_left' (encodeHeader_length c _)
  have hlen : (toBytes c p).length = 16 + p.header.payloadLength.toNat := by
    rw [toBytes, List.length_append, encodeHeader_length, beq_iff_eq.mp hwf]
  simp [validFrame, hhdr, hpay, hlen, decodeHeader_encodeHeader, validateHeaderChecksum_encodeHeader]

/-- What a delivered packet satisfies is what makes the frame it is sent as valid. -/
theorem validFrame_toBytes_of_delivered {c : Config} {p : Packet} (h : packetDelivered c p) :
    validFrame c (toBytes c p) = true := by
  obtain ⟨⟨hbound, -⟩, hwf, hsum⟩ := h
  exact (validFrame_toBytes_iff c hwf).mpr ⟨hbound, hsum⟩

/-! ### The two bytes of a checksum field -/

/-- Most significant byte first, the swapped state puts the state's low byte first (R41). -/
theorem uintBytes_swap16 (v : Half) : uintBytes 2 (swap16 v).toNat = [v.extractLsb 7 0, v.extractLsb 15 8] := by
  have hv := v.isLt
  have hvalue : (swap16 v).toNat = beValue [v.extractLsb 7 0, v.extractLsb 15 8] := by
    simp only [swap16_toNat, beValue_cons, beValue_nil, BitVec.extractLsb_toNat, Nat.shiftRight_eq_div_pow, List.length_cons,
      List.length_nil]
    omega
  rw [hvalue]
  exact uintBytes_beValue [v.extractLsb 7 0, v.extractLsb 15 8]

theorem getD_add_of_slice {f : List Byte} {a b k : Nat} (hk : k < b - a) :
    f.getD (a + k) 0 = (slice f a b).getD k 0 := by
  simp [slice, hk]

/-- A two-byte field that holds the swapped state, byte by byte and as a number (R41). -/
theorem checksumField_bytes {f : List Byte} {a : Nat} {v : Half} (h : slice f a (a + 2) = uintBytes 2 (swap16 v).toNat) :
    f.getD a 0 = v.extractLsb 7 0 ∧ f.getD (a + 1) 0 = v.extractLsb 15 8 ∧
      BitVec.ofNat 16 (decodeUint (slice f a (a + 2)) 2) = swap16 v := by
  refine ⟨?_, ?_, ?_⟩
  · rw [← Nat.add_zero a, getD_add_of_slice (b := a + 2) (by omega), h, uintBytes_swap16]; rfl
  · rw [getD_add_of_slice (b := a + 2) (by omega), h, uintBytes_swap16]; rfl
  · rw [h, decodeUint_uintBytes_half, BitVec.ofNat_toNat, BitVec.setWidth_eq]

theorem fromFields_payloadChecksum {c : Config} {v o t : Nat} {payload : List Byte} {p : Packet}
    (h : fromFields c v o t payload = .ok p) : p.header.payloadChecksum = csumOf c payload := by
  unfold fromFields at h
  split_ifs at h
  injection h with h
  rw [← h]

/-! ### The statement -/

/-- Settles O23: both fields are written as `uintBytes 2` of a swapped accumulator state. -/
theorem checksumFieldsHoldSwappedState : Obligations.ChecksumFieldsHoldSwappedState := by
  intro c v o t payload p hp f sHdr sPay
  have hfields : f.take 12 = headerFields p.header := take_encodeHeader_append c p.header p.payload
  have hhdr : slice f 12 14 = uintBytes 2 (swap16 sHdr).toNat := by
    show _ = uintBytes 2 (csumOf c (f.take 12)).toNat
    rw [hfields]
    exact slice_encodeHeader_append_headerChecksum c p.header p.payload
  have hpay : slice f 14 16 = uintBytes 2 (swap16 sPay).toNat := by
    show _ = uintBytes 2 (csumOf c payload).toNat
    rw [← fromFields_payloadChecksum hp]
    exact slice_encodeHeader_append_payloadChecksum c p.header p.payload
  obtain ⟨h12, h13, hhdrValue⟩ := checksumField_bytes hhdr
  obtain ⟨h14, h15, hpayValue⟩ := checksumField_bytes hpay
  exact ⟨h12, h13, h14, h15, hhdrValue, hpayValue⟩

end Sys2Proof.Machine
end

section
/-! The stream of commands the host issues (spec/20_memory.md R45; 00_scope.md R13). -/

namespace Sys2Proof.Machine

theorem decode_encode (i : Instr) : decode (encode i) = .instr i := by
  cases i with
  | csUpdate b | rxByte b => simp [decode, encode]
  | nop | csReset | csRead | rxReset => rfl

theorem run_succ_of_step {k : Nat} {s t : State} (h : step s = .next t) :
    Sys2Proof.core.run (k + 1) s = Sys2Proof.core.run k t := by
  have hcore : Sys2Proof.core.step s = .next t := h
  simp only [Host.Core.run, hcore]

/-- The queue is the host's: no command changes it. -/
theorem exec_port {i : Instr} {s t : State} (h : exec i s = .next t) : t.port = s.port := by
  rw [exec_eq_command, command_eq] at h
  injection h with h
  rw [← h]
  split
  · obtain ⟨-, -, hport, -⟩ := effect_keeps i s
    exact hport
  · rfl

/-- Settles O45, by induction on the list of commands: one step takes the first command's word off the queue and is that command,
which leaves the other words queued. -/
theorem commandStreamRunsInOrder : Obligations.CommandStreamRunsInOrder := by
  intro is
  induction is with
  | nil =>
    intro s rest hp
    have hport : s.port = rest := hp
    rw [← hport]; rfl
  | cons i is ih =>
    intro s rest hp
    have hq : s.port = .command (encode i) :: (commandEvents is ++ rest) := hp
    obtain ⟨t, ht⟩ := exec_next i { s with port := commandEvents is ++ rest }
    have hstep : step s = .next t := by rw [step_command hq, runWord_instr (decode_encode i), ht]
    have hexec : exec i { s with port := rest } = .next { t with port := rest } :=
      exec_setPort (s := { s with port := commandEvents is ++ rest }) rest ht
    rw [List.length_cons, run_succ_of_step hstep, ih t rest (exec_port ht), runInstrs_cons hexec]

end Sys2Proof.Machine
end

section
/-! The states runs reach (spec/20_memory.md R35; 10_state.md R19, R23). -/

namespace Sys2Proof.Machine

/-- The invariant says nothing before the first reset, holds at reset, does not speak of the host's queue, and is kept by a step. -/
theorem inv_of_reachable {s : State} (h : Reachable s) : s.Inv := by
  induction h with
  | powerOn => intro hpow; cases hpow
  | reset => exact resetMeetsInvariant
  | hostIssues es _ ih => exact inv_of_frxPart_eq rfl rfl ih
  | step _ hst ih => exact stepKeepsInvariant _ _ ih hst

theorem rxBuf_length_le_of_frxInv_none {c : Config} {s : State} (h : frxInv c s) (hp : s.rxPend = none) : s.rxBuf.length ≤ 15 := by
  simpa [frxInv, hp, headerSize_eq] using h

theorem bounds_block_of_frxInv_some {s : State} {hd : Header} (h : frxInv Config.block s) (hp : s.rxPend = some hd) :
    s.rxBuf.length < hd.payloadLength.toNat ∧ hd.payloadLength.toNat ≤ 4080 := by
  obtain ⟨⟨hmax, -⟩, hlen⟩ := bounds_of_frxInv_some h hp
  exact ⟨hlen, hmax⟩

/-- Settles O59: the invariant of O58 holds in every reachable state, and bounds the buffer in both FSM states. -/
theorem reachableBuffersBounded : Obligations.ReachableBuffersBounded := by
  intro s hr hs
  obtain ⟨hfrx, hdel, -⟩ := inv_of_reachable hr hs
  refine ⟨?_, rxBuf_length_le_of_frxInv_none hfrx, fun hd => bounds_block_of_frxInv_some hfrx,
    fun p hp => validFrame_toBytes_of_delivered (hdel p hp)⟩
  rw [bufCap_block]
  cases hp : s.rxPend with
  | none =>
    have hlen := rxBuf_length_le_of_frxInv_none hfrx hp
    omega
  | some hd =>
    obtain ⟨hlen, hmax⟩ := bounds_block_of_frxInv_some hfrx hp
    omega

end Sys2Proof.Machine
end

section
/-! The command word's decoder and encoder (spec/30_encoding.md R56 to R60): each says once what it can answer. -/

namespace Sys2Proof.Machine

/-! ### The fields of a command word -/

theorem commandWord_eq_iff (op : BitVec 4) (data : Byte) (cw : CmdWord) :
    commandWord op data = cw ↔ opField cw = op ∧ dataField cw = data := by
  constructor
  · rintro rfl
    exact ⟨opField_commandWord op data, dataField_commandWord op data⟩
  · rintro ⟨rfl, rfl⟩
    exact commandWord_fields cw

/-! ### What the decoder can answer -/

theorem noOperand_eq_instr_iff (cw : CmdWord) (i j : Instr) : noOperand cw i = .instr j ↔ dataField cw = 0 ∧ i = j := by
  by_cases h : dataField cw = 0
  · simp only [noOperand, h, if_true, Decoded.instr.injEq, true_and]
  · simp only [noOperand, h, if_false, reduceCtorEq, false_and]

theorem noOperand_eq_reserved_iff (cw : CmdWord) (i : Instr) : noOperand cw i = .reserved cw ↔ dataField cw ≠ 0 := by
  by_cases h : dataField cw = 0
  · simp only [noOperand, h, if_true, reduceCtorEq, ne_eq, not_true_eq_false]
  · simp only [noOperand, h, if_false, ne_eq, not_false_eq_true]

/-- A command's word holds the op and the data by which the decoder chose the command. -/
theorem encode_of_decode {cw : CmdWord} {i : Instr} (h : decode cw = .instr i) : encode i = cw := by
  have hop {k : BitVec 4} (hk : (opField cw).toNat = k.toNat) : opField cw = k := BitVec.eq_of_toNat_eq hk
  unfold decode at h
  split at h
  case h_3 hk | h_6 hk =>
    cases h
    exact (commandWord_eq_iff _ _ _).mpr ⟨hop hk, rfl⟩
  case h_7 => cases h
  all_goals
    next hk =>
    obtain ⟨hdata, rfl⟩ := (noOperand_eq_instr_iff _ _ _).mp h
    exact (commandWord_eq_iff _ _ _).mpr ⟨hop hk, hdata⟩

/-- Each command has one word (R60). -/
theorem decode_eq_instr_iff (cw : CmdWord) (i : Instr) : decode cw = .instr i ↔ encode i = cw := by
  constructor
  · exact encode_of_decode
  · rintro rfl
    exact decode_encode i

theorem decode_total (cw : CmdWord) : (∃ i, decode cw = .instr i) ∨ decode cw = .reserved cw := by
  cases h : decode cw with
  | instr i => exact .inl ⟨i, rfl⟩
  | reserved w => exact .inr (congrArg _ (decode_reserved_self h))

/-- The decoder answers Reserved on exactly the words that R59 lists. -/
theorem decode_eq_reserved_iff (cw : CmdWord) : decode cw = .reserved cw ↔ reservedWord cw = true := by
  have hlt := (opField cw).isLt
  unfold decode reservedWord
  split
  case h_7 h0 h1 h2 h3 h8 h9 =>
    simp only [imp_false] at h0 h1 h2 h3 h8 h9
    simp
    omega
  case h_3 hk | h_6 hk => simp [hk]
  all_goals next hk => simp [hk, noOperand_eq_reserved_iff]

/-- Settles O3: a command decodes from its own word only. -/
theorem decodeEncodeRoundTrip : Obligations.DecodeEncodeRoundTrip :=
  ⟨fun i _ => decode_encode i, fun _ _ => encode_of_decode⟩

/-- Settles O1: thirteen closed words, each run through the decoder. -/
theorem sampleWordsDecode : Obligations.SampleWordsDecode := by
  unfold Obligations.SampleWordsDecode
  decide

end Sys2Proof.Machine
end

section
/-! The match and mask rows of spec/30_encoding.md R58, and the words that R59 leaves out. -/

namespace Sys2Proof.Machine

/-! ### Agreeing with a row -/

/-- The mask of a CW-N row covers the whole word. -/
theorem and_fullMask (cw : CmdWord) : cw &&& 0xFFF = cw := BitVec.and_allOnes

/-- Under the mask of a CW-B row only the op is left. -/
theorem and_opMask (cw : CmdWord) : cw &&& 0xF00 = commandWord (opField cw) 0 := by
  have h : commandWord (opField cw) (dataField cw) &&& commandWord 0xF 0 = commandWord (opField cw) 0 := by
    rw [commandWord, commandWord, BitVec.and_append]
    exact congrArg₂ _ BitVec.and_allOnes BitVec.and_zero
  rwa [commandWord_fields] at h

theorem and_opMask_eq_iff (cw : CmdWord) (op : BitVec 4) : cw &&& 0xF00 = commandWord op 0 ↔ opField cw = op := by
  rw [and_opMask, commandWord_eq_iff, opField_commandWord, dataField_commandWord]
  exact ⟨fun ⟨h, _⟩ => h.symm, fun h => ⟨h.symm, rfl⟩⟩

theorem decode_cwN_iff (cw : CmdWord) (i : Instr) : decode cw = .instr i ↔ cw &&& 0xFFF = encode i := by
  rw [and_fullMask, decode_eq_instr_iff, eq_comm]

theorem decode_cwB_iff (cw : CmdWord) {i : Instr} {op : BitVec 4} {b : Byte} (hi : encode i = commandWord op b) :
    decode cw = .instr i ↔ cw &&& 0xF00 = commandWord op 0 ∧ cw.extractLsb 7 0 = b := by
  rw [decode_eq_instr_iff, hi, commandWord_eq_iff, and_opMask_eq_iff]
  rfl

/-- A word that agrees with two rows agrees with both under the bits the two masks share. -/
theorem not_both_match {r r' : OpcodeRow} (h : r.pattern &&& r'.mask ≠ r'.pattern &&& r.mask) (cw : CmdWord) :
    ¬(r.matches cw = true ∧ r'.matches cw = true) := by
  rintro ⟨hr, hr'⟩
  rw [OpcodeRow.matches, beq_iff_eq] at hr hr'
  rw [← hr, ← hr', BitVec.and_assoc, BitVec.and_assoc, BitVec.and_comm r.mask] at h
  exact h rfl

/-- Settles O2: a word decodes to a command when it is the command's word, so each clause says what agreeing with the command's row
says; the rows' patterns already differ under the bits their masks share. -/
theorem decodeFollowsTable : Obligations.DecodeFollowsTable := by
  refine ⟨fun cw => ⟨decode_cwN_iff cw .nop, decode_cwN_iff cw .csReset, fun b => decode_cwB_iff cw (op := 0x2) rfl,
    decode_cwN_iff cw .csRead, decode_cwN_iff cw .rxReset, fun b => decode_cwB_iff cw (op := 0x9) rfl, decode_total cw⟩, rfl, ?_⟩
  have hrows : opcodeTable.Pairwise fun r r' => r.pattern &&& r'.mask ≠ r'.pattern &&& r.mask := by decide
  exact hrows.imp not_both_match

/-! ### How many words are commands -/

theorem countP_range_mul (p : Nat → Bool) (n b : Nat) :
    (List.range (n * b)).countP p = ((List.range n).map fun k => (List.range b).countP fun d => p (k * b + d)).sum := by
  induction n with
  | zero => simp
  | succ n ih =>
    rw [Nat.succ_mul, List.range_add, List.countP_append, ih, List.range_succ, List.map_append, List.sum_append, List.countP_map]
    rfl

theorem reservedWord_iff (cw : CmdWord) : reservedWord cw = true ↔
    let op := cw.toNat / 256
    let data := cw.toNat % 256
    (4 ≤ op ∧ op ≤ 7) ∨ (10 ≤ op ∧ op ≤ 15) ∨ ((op = 0 ∨ op = 1 ∨ op = 3 ∨ op = 8) ∧ data ≠ 0) := by
  simp [reservedWord, opField_toNat, ← dataField_toNat, BitVec.toNat_eq, or_assoc]

/-- How many of the 256 words of an op are commands (R58). -/
def commandsOfOp (op : Nat) : Nat :=
  if op = 2 ∨ op = 9 then 256 else if op = 0 ∨ op = 1 ∨ op = 3 ∨ op = 8 then 1 else 0

theorem isSome_decodeTableWord {n : Nat} (h : n < 4096) : (decodeTableWord 12 n).isSome = !reservedWord (BitVec.ofNat 12 n) := by
  obtain ⟨i, hi⟩ | hr := decode_total (BitVec.ofNat 12 n)
  · have hnot : ¬reservedWord (BitVec.ofNat 12 n) = true := by
      rw [← decode_eq_reserved_iff, hi]
      exact Decoded.noConfusion
    simp [decodeTableWord, h, hi, hnot]
  · simp [decodeTableWord, h, hr, (decode_eq_reserved_iff _).mp hr]

theorem isSome_decodeTableWord_of_fields {op data : Nat} (hop : op < 16) (hdata : data < 256) :
    (decodeTableWord 12 (op * 256 + data)).isSome = true ↔
      (op = 2 ∨ op = 9) ∨ (op = 0 ∨ op = 1 ∨ op = 3 ∨ op = 8) ∧ data = 0 := by
  have hfields : (op * 256 + data) % 4096 / 256 = op ∧ (op * 256 + data) % 4096 % 256 = data := by omega
  rw [isSome_decodeTableWord (by omega), Bool.not_eq_true', ← Bool.not_eq_true, reservedWord_iff, BitVec.toNat_ofNat,
    show 2 ^ 12 = 4096 from rfl, hfields.1, hfields.2]
  omega

theorem countP_commands_of_op {op : Nat} (hop : op < 16) :
    ((List.range 256).countP fun data => (decodeTableWord 12 (op * 256 + data)).isSome) = commandsOfOp op := by
  have hcmd {data : Nat} (h : data ∈ List.range 256) := isSome_decodeTableWord_of_fields hop (List.mem_range.mp h)
  unfold commandsOfOp
  split_ifs with hB hN
  · rw [List.countP_eq_length.mpr fun data h => (hcmd h).mpr (.inl hB), List.length_range]
  · calc _ = (List.range 256).countP (· == 0) := List.countP_congr fun data h => by simp [hcmd h, hB, hN]
      _ = 1 := List.count_eq_one_of_mem List.nodup_range (by simp)
  · exact List.countP_eq_zero.mpr fun data h => by simp [hcmd h, hB, hN]

theorem countP_commands : (List.range 4096).countP (fun n => (decodeTableWord 12 n).isSome) = 516 :=
  calc _ = ((List.range 16).map fun op => (List.range 256).countP fun data => (decodeTableWord 12 (op * 256 + data)).isSome).sum :=
        countP_range_mul (fun n => (decodeTableWord 12 n).isSome) 16 256
    _ = ((List.range 16).map commandsOfOp).sum := by
        rw [List.map_congr_left fun op hop => countP_commands_of_op (List.mem_range.mp hop)]
    _ = 516 := by decide

theorem countP_reserved : (List.range 4096).countP (fun n => (decodeTableWord 12 n).isNone) = 3580 := by
  have hsum := List.length_eq_countP_add_countP (fun n => (decodeTableWord 12 n).isSome) (l := List.range 4096)
  rw [countP_commands, List.length_range] at hsum
  have hnone : (List.range 4096).countP (fun n => (decodeTableWord 12 n).isNone) =
      (List.range 4096).countP (fun n => ¬(decodeTableWord 12 n).isSome = true) := List.countP_congr fun n _ => by simp
  omega

/-! ### Taking a reserved word -/

/-- Settles O4: the two counts add up over the sixteen ops, and a reserved word raises one refusal. -/
theorem reservedWordsAreRefused : Obligations.ReservedWordsAreRefused := by
  refine ⟨fun cw => ?_, countP_commands, countP_reserved, fun cw s hd hs => ?_⟩
  · rw [decode_eq_reserved_iff, reservedWord_iff]
  · refine ⟨s.raiseRefusal (.reserved cw), ?_, onlyRefuses_raiseRefusal s _⟩
    rw [runWord_reserved hd, refuseReserved, if_pos hs]

end Sys2Proof.Machine
end

section
/-! The byte codec and the header as one number (spec/30_encoding.md R49 to R52). -/

namespace Sys2Proof.Machine

/-! ### DecodeUint -/

theorem pow_256 (w : Nat) : 256 ^ w = 2 ^ (8 * w) := pow_mul 2 8 w |>.symm

theorem beValue_eq_sum (s : List Byte) :
    beValue s = ((List.range s.length).map fun i => (s.getD i 0).toNat * 256 ^ (s.length - 1 - i)).sum := by
  induction s with
  | nil => rfl
  | cons b s ih =>
    have htail : (List.range s.length).map (fun i => ((b :: s).getD (i + 1) 0).toNat * 256 ^ (s.length + 1 - 1 - (i + 1))) =
        (List.range s.length).map fun i => (s.getD i 0).toNat * 256 ^ (s.length - 1 - i) :=
      List.map_congr_left fun i _ => by rw [List.getD_cons_succ, show s.length + 1 - 1 - (i + 1) = s.length - 1 - i by omega]
    rw [beValue_cons, ih, List.length_cons, List.range_succ_eq_map, List.map_cons, List.sum_cons, List.map_map, ← htail]
    rfl

theorem getD_take {s : List Byte} {w i : Nat} (h : i < w) : (s.take w).getD i 0 = s.getD i 0 := by
  simp [List.getD_eq_getElem?_getD, h]

/-- Settles O5: over the first w bytes, all of them read, the recursion of DecodeUint is the sum. -/
theorem decodeUintIsBigEndianSum : Obligations.DecodeUintIsBigEndianSum := by
  intro s w hw
  have hlen : (s.take w).length = w := List.length_take_of_le hw
  rw [decodeUint_eq_beValue]
  constructor
  · rw [beValue_eq_sum, hlen, List.map_congr_left fun i hi => by rw [getD_take (List.mem_range.mp hi)]]
  · have hlt := beValue_lt (s.take w)
    rwa [hlen, pow_256] at hlt

/-! ### EncodeUint -/

theorem getD_uintBytes_toNat {w i : Nat} (v : Nat) (h : i < w) :
    ((uintBytes w v).getD i 0).toNat = v / 256 ^ (w - 1 - i) % 256 := by
  induction w generalizing i with
  | zero => omega
  | succ w ih =>
    cases i with
    | zero => simp [uintBytes]
    | succ i => rw [uintBytes, List.getD_cons_succ, ih (by omega), show w + 1 - 1 - (i + 1) = w - 1 - i by omega]

/-- Settles O6: the bytes are `uintBytes`, and a value below 256^w is its own remainder. -/
theorem encodeUintInvertsDecodeUint : Obligations.EncodeUintInvertsDecodeUint := by
  intro v w
  refine ⟨fun hv => ⟨uintBytes w v, if_pos hv, uintBytes_length w v, ?_, fun i hi => ?_⟩, fun hv => if_neg (by omega)⟩
  · rw [decodeUint_uintBytes, Nat.mod_eq_of_lt (by rwa [pow_256])]
  · rw [getD_uintBytes_toNat v hi, pow_256]

/-! ### The header as a 128-bit number -/

theorem mul_add_div_mod {x m y l z : Nat} (hy : y < m) (hz : z < l) : ((x * m + y) * l + z) / l % m = y := by
  rw [Nat.add_comm, Nat.add_mul_div_right _ _ (by omega), Nat.div_eq_of_lt hz, Nat.zero_add, Nat.mul_add_mod_of_lt hy]

/-- In the value of a sequence, the division drops the bytes from b on and the remainder those before a. -/
theorem beValue_slice (s : List Byte) {a b : Nat} (hab : a ≤ b) (hb : b ≤ s.length) :
    beValue (slice s a b) = beValue s / 256 ^ (s.length - b) % 256 ^ (b - a) := by
  have hsplit : s.take a ++ slice s a b ++ s.drop b = s := by
    rw [← slice_zero, slice_append_slice s (Nat.zero_le a) hab, slice_zero, List.take_append_drop]
  have hmidLen : (slice s a b).length = b - a := by rw [slice_length]; omega
  have hvalue : beValue s = (beValue (s.take a) * 256 ^ (b - a) + beValue (slice s a b)) * 256 ^ (s.length - b) + beValue (s.drop b) := by
    rw [← hmidLen, ← beValue_append, ← List.length_drop, ← beValue_append, hsplit]
  have hmid := beValue_lt (slice s a b)
  have hlow := beValue_lt (s.drop b)
  rw [hmidLen] at hmid
  rw [List.length_drop] at hlow
  rw [hvalue, mul_add_div_mod hmid hlow]

theorem decodeUint_slice {h : List Byte} (hl : h.length = 16) {a w : Nat} (hw : a + w ≤ 16) :
    decodeUint (slice h a (a + w)) w = decodeUint h 16 / 2 ^ (8 * (16 - (a + w))) % 2 ^ (8 * w) := by
  have hlen : (slice h a (a + w)).length = w := by rw [slice_length]; omega
  rw [decodeUint_eq_beValue, decodeUint_eq_beValue, List.take_of_length_le hlen.le, List.take_of_length_le hl.le,
    beValue_slice h (Nat.le_add_right a w) (by omega), hl, Nat.add_sub_cancel_left, pow_256, pow_256]

/-- A field of w bytes at a is a bit range of the header number (R52). -/
theorem headerField_eq_extract {h : List Byte} (hl : h.length = 16) (a w : Nat) (hw : a + w ≤ 16) :
    BitVec.ofNat (8 * w) (decodeUint (slice h a (a + w)) w) =
      (BitVec.ofNat 128 (decodeUint h 16)).extractLsb' (8 * (16 - (a + w))) (8 * w) := by
  have hH : decodeUint h 16 < 2 ^ 128 := decodeUint_lt hl
  apply BitVec.eq_of_toNat_eq
  rw [BitVec.toNat_ofNat, BitVec.extractLsb'_toNat, BitVec.toNat_ofNat, Nat.mod_eq_of_lt hH, Nat.shiftRight_eq_div_pow,
    decodeUint_slice hl hw, Nat.mod_mod]

theorem decodeHeader_eq_headerOfBits {h : List Byte} (hl : h.length = 16) :
    decodeHeader h = headerOfBits (BitVec.ofNat 128 (decodeUint h 16)) := by
  rw [decodeHeader, headerOfBits]
  congr 1
  · exact headerField_eq_extract hl 0 4 (by decide)
  · exact headerField_eq_extract hl 4 2 (by decide)
  · exact headerField_eq_extract hl 6 2 (by decide)
  · exact headerField_eq_extract hl 8 4 (by decide)
  · exact headerField_eq_extract hl 12 2 (by decide)
  · exact headerField_eq_extract hl 14 2 (by decide)

theorem getD_eq_decodeUint_slice {s : List Byte} {k : Nat} (hk : k < s.length) :
    s.getD k 0 = BitVec.ofNat 8 (decodeUint (slice s k (k + 1)) 1) := by
  have hbyte : slice s k (k + 1) = [s[k]] := by
    rw [slice, List.drop_eq_getElem_cons hk, Nat.add_sub_cancel_left, List.take_succ_cons, List.take_zero]
  rw [hbyte, List.getD_eq_getElem s 0 hk]
  simp [decodeUint]

/-- Settles O7: the six fields and each byte are slices of the header, and a slice is a bit range of its number. -/
theorem headerBitPositions : Obligations.HeaderBitPositions := by
  intro h hl
  rw [decodeHeader_eq_headerOfBits hl]
  refine ⟨rfl, rfl, rfl, rfl, rfl, rfl, fun k hk => ?_⟩
  rw [getD_eq_decodeUint_slice (hl ▸ hk), show 120 - 8 * k = 8 * (16 - (k + 1)) by omega]
  exact headerField_eq_extract hl k 1 hk

end Sys2Proof.Machine
end

section
/-! The pseudo-instruction CS.SUM and the continuous output (spec/30_encoding.md R61, R63). -/

namespace Sys2Proof.Machine

/-- CS.UPDSEQ folds its bytes into the accumulator. -/
theorem runInstrs_csUpdseq (bs : List Byte) {s : State} (h : s.poweredUp = true) :
    runInstrs (csUpdseq bs) s = .next (s.setCsum (csumFoldFrom Config.block (s.csValue, s.csPrev) bs)) := by
  induction bs generalizing s with
  | nil => rfl
  | cons b bs ih => exact (runInstrs_cons (exec_of_poweredUp (.csUpdate b) h)).trans (ih h)

/-- What the fold keeps of the sequence beside the value is its last byte. -/
theorem csumFoldFrom_snd (c : Config) (a : Half × Byte) (bs : List Byte) : (csumFoldFrom c a bs).2 = bs.getLastD a.2 := by
  induction bs generalizing a with
  | nil => rfl
  | cons b bs ih => rw [csumFoldFrom_cons, ih, csumStep_snd, List.getLastD_cons]

/-- Settles O15: the reset starts the fold afresh, the updates run it, and the read returns its value swapped. -/
theorem csSumReturnsCsumOf : Obligations.CsSumReturnsCsumOf := by
  intro bs s hs
  refine ⟨_, rfl, ?_⟩
  have hfold : runInstrs (.csReset :: csUpdseq bs) s = .next (s.setCsum (csumFold Config.block bs)) :=
    (runInstrs_cons (exec_of_poweredUp .csReset hs)).trans (runInstrs_csUpdseq bs hs)
  have hread := exec_of_poweredUp .csRead (s := s.setCsum (csumFold Config.block bs)) hs
  rw [runInstrs_append hfold, runInstrs_cons hread, runInstrs_nil, ← csumFoldFrom_snd Config.block (0, 0)]
  rfl

/-- Settles O13: the output and CS.READ both show the accumulator swapped. -/
theorem continuousOutputShowsReadValue : Obligations.ContinuousOutputShowsReadValue := by
  intro s hs
  rw [State.csValueO]
  split
  · exact .inr ⟨_, rfl, exec_of_poweredUp .csRead hs⟩
  · exact .inl rfl

end Sys2Proof.Machine
end

section
/-! The assembler: lines, words and operands (spec/30_encoding.md R62). -/

namespace Sys2Proof.Machine

/-! ### The words of a line -/

/-- A character that neither ends a word nor begins a comment. -/
def wordChar (ch : Char) : Bool := ch ≠ ' ' && ch ≠ '\t' && ch ≠ ';'

/-- What the assembler reads as one word. -/
def isWord (w : List Char) : Bool := !w.isEmpty && w.all wordChar

theorem isWord_iff (w : List Char) : isWord w = true ↔ w ≠ [] ∧ ∀ ch ∈ w, ch ≠ ' ' ∧ ch ≠ '\t' ∧ ch ≠ ';' := by
  simp [isWord, wordChar, and_assoc]

/-- A space after a word ends it. -/
theorem splitWords_word_space (r m rest : List Char) (h : ∀ ch ∈ m, ch ≠ ' ' ∧ ch ≠ '\t') (hne : r ≠ [] ∨ m ≠ []) :
    splitWords r (m ++ ' ' :: rest) = (r.reverse ++ m) :: splitWords [] rest := by
  induction m generalizing r with
  | nil =>
    have hr : r.isEmpty = false := by simpa using hne
    simp [splitWords, hr]
  | cons c m ih =>
    have hc := h c List.mem_cons_self
    rw [List.cons_append, splitWords, if_neg (by simp [hc]), ih (c :: r) (fun ch hm => h ch (List.mem_cons_of_mem c hm)) (by simp)]
    simp

theorem lineWords_word {m : List Char} (hm : isWord m = true) : lineWords m = [m] := by
  obtain ⟨hne, hch⟩ := (isWord_iff m).mp hm
  have hstrip : stripComment m = m := List.takeWhile_eq_self_iff.mpr fun ch h => by simp [hch ch h]
  rw [lineWords, hstrip, splitWords_solid [] m (fun ch h => ⟨(hch ch h).1, (hch ch h).2.1⟩) (.inr hne)]
  rfl

theorem lineWords_two_words {m w : List Char} (hm : isWord m = true) (hw : isWord w = true) :
    lineWords (m ++ ' ' :: w) = [m, w] := by
  obtain ⟨hmne, hmch⟩ := (isWord_iff m).mp hm
  obtain ⟨hwne, hwch⟩ := (isWord_iff w).mp hw
  have hstrip : stripComment (m ++ ' ' :: w) = m ++ ' ' :: w := List.takeWhile_eq_self_iff.mpr fun ch h => by
    obtain h | rfl | h : ch ∈ m ∨ ch = ' ' ∨ ch ∈ w := by simpa using h
    · simp [hmch ch h]
    · decide
    · simp [hwch ch h]
  rw [lineWords, hstrip, splitWords_word_space [] m w (fun ch h => ⟨(hmch ch h).1, (hmch ch h).2.1⟩) (.inr hmne),
    splitWords_solid [] w (fun ch h => ⟨(hwch ch h).1, (hwch ch h).2.1⟩) (.inr hwne)]
  rfl

/-! ### A line by its words -/

theorem assembleLine_cwN {m : List Char} {i : Instr} (hm : isWord m = true) (hi : readMnemonic m = some (.cwN i)) :
    assembleLine m = .ok (some (encode i)) := by
  simp only [assembleLine, lineWords_word hm, hi]

theorem assembleLine_cwN_operand {m w : List Char} {i : Instr} (hm : isWord m = true) (hi : readMnemonic m = some (.cwN i))
    (hw : isWord w = true) : assembleLine (m ++ ' ' :: w) = .error .operandOnCwN := by
  simp only [assembleLine, lineWords_two_words hm hw, hi]

theorem assembleLine_cwB {m w : List Char} {i : Byte → Instr} (hm : isWord m = true) (hi : readMnemonic m = some (.cwB i))
    (hw : isWord w = true) : assembleLine (m ++ ' ' :: w) = (readOperand w).map fun b => some (encode (i b)) := by
  simp only [assembleLine, lineWords_two_words hm hw, hi]
  cases readOperand w <;> rfl

theorem assembleLine_cwB_of_operand {m w : List Char} {i : Byte → Instr} {b : Byte} (hm : isWord m = true)
    (hi : readMnemonic m = some (.cwB i)) (hw : isWord w = true) (hb : readOperand w = .ok b) :
    assembleLine (m ++ ' ' :: w) = .ok (some (encode (i b))) := by
  rw [assembleLine_cwB hm hi hw, hb]
  rfl

theorem assembleLine_cwB_missing {m : List Char} {i : Byte → Instr} (hm : isWord m = true) (hi : readMnemonic m = some (.cwB i)) :
    assembleLine m = .error .missingOperand := by
  simp only [assembleLine, lineWords_word hm, hi]

theorem assembleLine_unknown {m : List Char} (hm : isWord m = true) (hi : readMnemonic m = none) :
    assembleLine m = .error .unknownMnemonic := by
  simp only [assembleLine, lineWords_word hm, hi]

/-! ### Operands -/

theorem digitValue_hexDigit {d : Nat} (h : d < 16) : digitValue (hexDigit d) = some d := by
  revert d; decide

theorem wordChar_hexDigit {d : Nat} (h : d < 16) : wordChar (hexDigit d) = true := by
  revert d; decide

theorem isWord_byteText (b : Byte) : isWord (byteText b) = true := by
  have hb := b.isLt
  have hhigh := wordChar_hexDigit (d := b.toNat / 16) (by omega)
  have hlow := wordChar_hexDigit (d := b.toNat % 16) (by omega)
  simp only [isWord, byteText, List.isEmpty_cons, List.all_cons, List.all_nil, hhigh, hlow]
  decide

/-- A hexadecimal operand reads as its byte. -/
theorem readOperand_byteText (b : Byte) : readOperand (byteText b) = .ok b := by
  have hb := b.isLt
  have hhigh := digitValue_hexDigit (d := b.toNat / 16) (by omega)
  have hlow := digitValue_hexDigit (d := b.toNat % 16) (by omega)
  have hdigits : readDigits 16 0 [hexDigit (b.toNat / 16), hexDigit (b.toNat % 16)] = some b.toNat := by
    simp only [readDigits, hhigh, hlow]
    rw [if_pos (by omega), if_pos (by omega)]
    congr 1; omega
  simp [readOperand, byteText, hdigits]; omega

theorem isWord_toDigits (n : Nat) : isWord (Nat.toDigits 10 n) = true := by
  rw [isWord_iff]
  refine ⟨Nat.toDigits_ne_nil, fun ch h => ?_⟩
  have hdigit := digits_of_readDigits (readDigits_toDigits n) ch h
  refine ⟨?_, ?_, ?_⟩ <;> rintro rfl <;> simp at hdigit

theorem readOperand_toDigits_toNat (b : Byte) : readOperand (Nat.toDigits 10 b.toNat) = .ok b := by
  have hb := b.isLt
  rw [readOperand_toDigits, if_neg (by omega), BitVec.ofNat_toNat, BitVec.setWidth_eq]

/-! ### The mnemonics -/

theorem readMnemonic_csUpdate : readMnemonic "CS.UPDATE".toList = some (.cwB .csUpdate) := rfl

theorem readMnemonic_rxByte : readMnemonic "RX.BYTE".toList = some (.cwB .rxByte) := rfl

theorem cwN_mnemonic {m : String} (h : m ∈ ["NOP", "CS.RESET", "CS.READ", "RX.RESET"]) :
    isWord m.toList = true ∧ ∃ i, readMnemonic m.toList = some (.cwN i) := by
  simp only [List.mem_cons, List.not_mem_nil, or_false] at h
  obtain rfl | rfl | rfl | rfl := h
  all_goals exact ⟨by decide, _, rfl⟩

theorem cwB_mnemonic {m : String} (h : m ∈ ["CS.UPDATE", "RX.BYTE"]) :
    isWord m.toList = true ∧ ∃ i, readMnemonic m.toList = some (.cwB i) := by
  simp only [List.mem_cons, List.not_mem_nil, or_false] at h
  obtain rfl | rfl := h
  all_goals exact ⟨by decide, _, rfl⟩

theorem not_mnemonic {m : String} (h : m ∈ ["nop", "RX", "RX.BYTE5", "0x905"]) :
    isWord m.toList = true ∧ readMnemonic m.toList = none := by
  simp only [List.mem_cons, List.not_mem_nil, or_false] at h
  obtain rfl | rfl | rfl | rfl := h
  all_goals exact ⟨by decide, rfl⟩

/-! ### The statement -/

/-- A command's own line assembles to its word. -/
theorem assembleLine_instrText (i : Instr) : assembleLine (instrText i) = .ok (some (encode i)) := by
  cases i with
  | csUpdate b =>
    exact assembleLine_cwB_of_operand (by decide) readMnemonic_csUpdate (isWord_byteText b) (readOperand_byteText b)
  | rxByte b =>
    exact assembleLine_cwB_of_operand (by decide) readMnemonic_rxByte (isWord_byteText b) (readOperand_byteText b)
  | nop | csReset | csRead | rxReset => exact assembleLine_cwN (by decide) rfl

theorem assemble_instrText (is : List Instr) : assemble (is.map instrText) = .ok (is.map encode) := by
  induction is with
  | nil => rfl
  | cons i is ih => simp only [List.map_cons, assemble, assembleLine_instrText, ih]

/-- Settles O8: each line comes down to its words, and those to its mnemonic and operand. -/
theorem assemblerFollowsSyntax : Obligations.AssemblerFollowsSyntax := by
  refine ⟨assemble_instrText, assembleLine_instrText, fun b => ⟨?_, ?_⟩, fun line comment => ?_, rfl, fun m h b => ?_, fun m h => ?_,
    fun m h => ?_⟩
  · exact assembleLine_cwB_of_operand (by decide) readMnemonic_csUpdate (isWord_toDigits _) (readOperand_toDigits_toNat b)
  · exact assembleLine_cwB_of_operand (by decide) readMnemonic_rxByte (isWord_toDigits _) (readOperand_toDigits_toNat b)
  · rw [assembleLine, assembleLine, lineWords, lineWords, stripComment_append]
  · obtain ⟨hm, i, hi⟩ := cwN_mnemonic h
    exact assembleLine_cwN_operand hm hi (isWord_byteText b)
  · obtain ⟨hm, i, hi⟩ := cwB_mnemonic h
    refine ⟨assembleLine_cwB_missing hm hi, fun n hn => ?_⟩
    rw [assembleLine_cwB hm hi (isWord_toDigits n), readOperand_toDigits, if_pos hn]
    rfl
  · obtain ⟨hm, hi⟩ := not_mnemonic h
    exact assembleLine_unknown hm hi

end Sys2Proof.Machine
end

section
/-! NOP and the CSUM commands (spec/40_checksum.md R64, R66 to R68, R72), in the integer arithmetic of the rules. -/

namespace Sys2Proof.Machine

/-! ### Before the first reset -/

/-- Before the first reset every command faults with its own word and changes nothing else (60_exceptions.md R118). -/
theorem exec_onlyFaults {i : Instr} {cw : CmdWord} {s : State} (hcw : encode i = cw) (h : s.poweredUp = false) :
    ∃ t, exec i s = .next t ∧ onlyFaults s t (.notReset cw) :=
  ⟨_, exec_of_not_poweredUp i h, hcw ▸ onlyFaults_raiseFault s _⟩

/-! ### Two commands in a row -/

theorem runInstrs_pair (i j : Instr) {s : State} (h : s.poweredUp = true) :
    runInstrs [i, j] s = .next (effect j (effect i s)) := by
  obtain ⟨-, -, -, hpow⟩ := effect_keeps i s
  rw [runInstrs_cons (exec_of_poweredUp i h), runInstrs_cons (exec_of_poweredUp j (hpow.trans h)), runInstrs_nil]

/-! ### Values as numbers -/

theorem swap16_eq_ofNat (v : Half) : swap16 v = BitVec.ofNat 16 (256 * (v.toNat % 256) + v.toNat / 256) := by
  rw [← swap16_toNat, BitVec.ofNat_toNat, BitVec.setWidth_eq]

theorem bytePair_toNat (p b : Byte) : (p ++ b).toNat = 256 * p.toNat + b.toNat := by
  rw [BitVec.toNat_append, ← Nat.shiftLeft_add_eq_or_of_lt b.isLt, Nat.shiftLeft_eq, mul_comm]

theorem bytePair_eq_ofNat (p b : Byte) : p ++ b = BitVec.ofNat 16 (256 * p.toNat + b.toNat) := by
  rw [← bytePair_toNat, BitVec.ofNat_toNat, BitVec.setWidth_eq]

theorem half_shiftLeft_one_eq_ofNat (v : Half) : v <<< 1 = BitVec.ofNat 16 (2 * v.toNat % 65536) := by
  apply BitVec.eq_of_toNat_eq
  rw [BitVec.toNat_shiftLeft, BitVec.toNat_ofNat, Nat.shiftLeft_eq]
  omega

/-- The shift and the conditional polynomial of R64, before the byte pair is XORed in. -/
def shiftedNat (v : Nat) : Nat := if 32768 ≤ v then 2 * v % 65536 ^^^ 0x8005 else 2 * v % 65536

/-- R64 in integers: the shift drops bit 16 and bit 15 is a comparison. -/
theorem csumStep_block_fst_eq_ofNat (v : Half) (p b : Byte) :
    (csumStep Config.block v p b).1 = BitVec.ofNat 16 (shiftedNat v.toNat ^^^ (256 * p.toNat + b.toNat)) := by
  have hmsb : v.msb = decide (32768 ≤ v.toNat) := BitVec.msb_eq_decide v
  rw [csumStep_fst, BitVec.ofNat_xor, ← bytePair_eq_ofNat, half_shiftLeft_one_eq_ofNat, hmsb, shiftedNat]
  by_cases h : 32768 ≤ v.toNat
  · simp [h, Config.block]
  · simp [h]

/-! ### The statements -/

/-- Settles O9, by the update in integers. -/
theorem csUpdateFoldsOneByte : Obligations.CsUpdateFoldsOneByte := by
  intro b s
  have hcw : encode (.csUpdate b) = 0x200 ||| b.setWidth 12 := rfl
  refine ⟨hcw, fun hs => ?_, exec_onlyFaults hcw⟩
  have hvalue := csumStep_block_fst_eq_ofNat s.csValue s.csPrev b
  calc exec (.csUpdate b) s = .next { s with csValue := (csumStep Config.block s.csValue s.csPrev b).1, csPrev := b } :=
        exec_of_poweredUp _ hs
    _ = _ := by rw [hvalue, shiftedNat]

/-- Settles O10: the cleared registers are cleared again, and their swapped value is 0. -/
theorem csResetClearsAccumulator : Obligations.CsResetClearsAccumulator := by
  refine ⟨rfl, fun s => ⟨fun hs => ?_, exec_onlyFaults rfl⟩⟩
  have hreset := exec_of_poweredUp .csReset hs
  refine ⟨hreset, (runInstrs_pair .csReset .csReset hs).trans hreset.symm, (runInstrs_pair .csReset .csRead hs).trans ?_⟩
  simp [effect, State.setCsum, State.returnResult]

/-- Settles O11: a read appends the swapped value and leaves the accumulator for the next read. -/
theorem csReadReturnsSwappedState : Obligations.CsReadReturnsSwappedState := by
  refine ⟨rfl, fun s => ⟨fun hs => ?_, exec_onlyFaults rfl⟩⟩
  rw [← swap16_eq_ofNat]
  refine ⟨exec_of_poweredUp .csRead hs, (runInstrs_pair .csRead .csRead hs).trans ?_⟩
  simp [effect, State.returnResult]

/-- Settles O12: the effect of NOP is the identity. -/
theorem nopDoesNothing : Obligations.NopDoesNothing :=
  ⟨rfl, fun _ => ⟨exec_of_poweredUp .nop, exec_onlyFaults rfl⟩⟩

end Sys2Proof.Machine
end

section
/-! The update in a wider register (spec/40_checksum.md R65). -/

namespace Sys2Proof.Machine

/-- What CS.READ can see of a wider accumulator: bits 15:0, with the previous byte. -/
def lowHalf {n : Nat} (a : BitVec n × Byte) : Half × Byte := (a.1.setWidth 16, a.2)

/-- A left shift and XORs move no bit down, so the kept bits of the wide update are the update of the kept bits. -/
theorem lowHalf_csumStepWide (c : Config) {n : Nat} (hn : 16 ≤ n) (v : BitVec n) (p b : Byte) :
    lowHalf (csumStepWide c n v p b) = csumStep c (v.setWidth 16) p b := by
  have hmsb : (v.setWidth 16).msb = v.getLsbD 15 := BitVec.msb_setWidth'' v
  refine Prod.ext ?_ rfl
  rw [csumStep_fst, hmsb, lowHalf, csumStepWide, BitVec.setWidth_xor, BitVec.setWidth_setWidth_of_le _ hn, BitVec.setWidth_eq]
  cases v.getLsbD 15
  · simp [hn]
  · simp [hn]

/-- Settles O16: keeping the low bits is a homomorphism from the wide fold to the 16-bit one. -/
theorem widerRegisterReadsSame : Obligations.WiderRegisterReadsSame := by
  intro c n s v p hn
  exact (List.foldl_hom lowHalf fun a b => (lowHalf_csumStepWide c hn a.1 a.2 b).symm).symm

end Sys2Proof.Machine
end

section
/-! The checksum of a sequence (spec/40_checksum.md R71, R73 to R76). -/

namespace Sys2Proof.Machine

/-! ### Short sequences and leading zeros -/

theorem swap16_append (p b : Byte) : swap16 (p ++ b) = b ++ p := by
  rw [swap16, BitVec.extractLsb'_append_eq_left, BitVec.extractLsb'_append_eq_right]

theorem setWidth_byte_eq_append (b : Byte) : b.setWidth 16 = (0#8 ++ b : Half) := by
  apply BitVec.eq_of_toNat_eq
  have hb := b.isLt
  rw [bytePair_toNat, BitVec.toNat_setWidth, BitVec.toNat_zero]
  omega

theorem msb_setWidth_byte (b : Byte) : (b.setWidth 16 : Half).msb = false := by
  simp [BitVec.msb_setWidth]

/-- A fresh accumulator takes its first byte as it is. -/
theorem csumStep_fresh (c : Config) (b : Byte) : csumStep c 0x0000 0x00 b = (b.setWidth 16, b) := by
  refine Prod.ext ?_ rfl
  rw [csumStep_fst, setWidth_byte_eq_append]
  simp

theorem csumFold_cons (c : Config) (b : Byte) (s : List Byte) : csumFold c (b :: s) = csumFoldFrom c (b.setWidth 16, b) s := by
  rw [csumFold, csumFoldFrom_cons, csumStep_fresh]

theorem csumFold_singleton (c : Config) (b : Byte) : csumFold c [b] = (b.setWidth 16, b) := csumFold_cons c b []

/-- The closed form for two bytes: bit 15 is not set after the first, so no polynomial shows in it. -/
theorem csumFold_pair (c : Config) (a b : Byte) : csumFold c [a, b] = ((a ++ b) ^^^ (a.setWidth 16 <<< 1), b) := by
  rw [csumFold_cons, csumFoldFrom_cons, csumFoldFrom_nil]
  refine Prod.ext ?_ rfl
  rw [csumStep_fst, msb_setWidth_byte]
  simp [BitVec.xor_comm]

/-- Zero bytes leave a fresh accumulator fresh. -/
theorem csumFold_zeros_append (c : Config) (k : Nat) (s : List Byte) : csumFold c (List.replicate k 0 ++ s) = csumFold c s := by
  induction k with
  | zero => rfl
  | succ k ih =>
    rw [List.replicate_succ, List.cons_append, csumFold_cons, ← ih]
    rfl

theorem csumOf_zeros_append (c : Config) (k : Nat) (s : List Byte) : csumOf c (List.replicate k 0 ++ s) = csumOf c s := by
  rw [csumOf, csumFold_zeros_append, csumOf]

theorem csumOf_zeros (c : Config) (k : Nat) : csumOf c (List.replicate k 0) = 0 := by
  rw [← List.append_nil (List.replicate k 0), csumOf_zeros_append]
  exact csumOf_nil c

theorem csumOf_singleton (c : Config) (b : Byte) : csumOf c [b] = b ++ 0#8 := by
  rw [csumOf, csumFold_singleton, setWidth_byte_eq_append, swap16_append]

theorem csumOf_pair (c : Config) (a b : Byte) : csumOf c [a, b] = swap16 ((a ++ b) ^^^ (a.setWidth 16 <<< 1)) := by
  rw [csumOf, csumFold_pair]

/-! ### Two bytes -/

/-- The high byte of the two-byte state is `a XOR (a >> 7)`. -/
theorem getLsbD_twoByteState (a b : Byte) {i : Nat} (hi : i < 8) :
    ((a ++ b) ^^^ (a.setWidth 16 <<< 1)).getLsbD (i + 8) = (a.getLsbD i ^^ a.getLsbD (i + 7)) := by
  simp only [BitVec.getLsbD_xor, BitVec.getLsbD_append, BitVec.getLsbD_shiftLeft, BitVec.getLsbD_setWidth]
  simp [show ¬ i + 8 < 8 by omega, show i + 8 < 16 by omega, show i + 7 < 16 by omega]

/-- The two-byte state gives `a`, from bit 7 down to bit 0, and then `b`. -/
theorem twoByteState_injective {a b a' b' : Byte}
    (h : (a ++ b) ^^^ (a.setWidth 16 <<< 1) = (a' ++ b') ^^^ (a'.setWidth 16 <<< 1)) : a = a' ∧ b = b' := by
  have hhigh : ∀ i < 8, (a.getLsbD i ^^ a.getLsbD (i + 7)) = (a'.getLsbD i ^^ a'.getLsbD (i + 7)) := by
    intro i hi
    rw [← getLsbD_twoByteState a b hi, h, getLsbD_twoByteState a' b' hi]
  have hupper : ∀ i < 7, a.getLsbD (i + 1) = a'.getLsbD (i + 1) := by
    intro i hi
    have hbit := hhigh (i + 1) (by omega)
    rwa [BitVec.getLsbD_of_ge a (i + 1 + 7) (by omega), BitVec.getLsbD_of_ge a' (i + 1 + 7) (by omega), Bool.xor_false,
      Bool.xor_false] at hbit
  have ha : a = a' := by
    apply BitVec.eq_of_getLsbD_eq
    rintro (_ | i) hi
    · have hbit := hhigh 0 (by omega)
      rwa [Nat.zero_add, hupper 6 (by omega), Bool.xor_left_inj] at hbit
    · exact hupper i (by omega)
  subst ha
  rw [BitVec.xor_left_inj, BitVec.append_right_inj] at h
  exact ⟨rfl, h⟩

theorem csumOf_pair_injective {c : Config} {a b a' b' : Byte} (h : csumOf c [a, b] = csumOf c [a', b']) : a = a' ∧ b = b' := by
  rw [csumOf_pair, csumOf_pair] at h
  exact twoByteState_injective (swap16_injective h)

/-! ### Linearity -/

theorem swap16_xor (v w : Half) : swap16 (v ^^^ w) = swap16 v ^^^ swap16 w := by
  rw [swap16, swap16, swap16, BitVec.xor_append, BitVec.extractLsb'_xor, BitVec.extractLsb'_xor]

theorem csumFoldFrom_xor (c : Config) (v w : Half) (p q : Byte) {s t : List Byte} (h : s.length = t.length) :
    (csumFoldFrom c (v ^^^ w, p ^^^ q) (List.zipWith (· ^^^ ·) s t)).1 =
      (csumFoldFrom c (v, p) s).1 ^^^ (csumFoldFrom c (w, q) t).1 := by
  induction s generalizing t v w p q with
  | nil => rw [List.eq_nil_of_length_eq_zero h.symm]; rfl
  | cons a s ih =>
    obtain ⟨b, t, rfl⟩ := List.exists_cons_of_length_eq_add_one h.symm
    rw [List.zipWith_cons_cons, csumFoldFrom_cons, csumStep_xor]
    exact ih _ _ _ _ (Nat.succ.inj h)

theorem csumOf_xor (c : Config) {s t : List Byte} (h : s.length = t.length) :
    csumOf c (List.zipWith (· ^^^ ·) s t) = csumOf c s ^^^ csumOf c t := by
  rw [csumOf, csumOf, csumOf, ← swap16_xor]
  exact congrArg swap16 (csumFoldFrom_xor c 0 0 0 0 h)

/-! ### One flipped bit -/

/-- Flipping a bit is XORing with the sequence whose only set bit it is. -/
theorem flipBit_eq_zipWith_xor (s : List Byte) (i j : Nat) :
    flipBit s i j = List.zipWith (· ^^^ ·) s (flipBit (List.replicate s.length 0) i j) := by
  apply List.ext_getElem
  · simp [flipBit]
  · intro k hk hk'
    simp only [flipBit, List.getElem_modify, List.getElem_zipWith, List.getElem_replicate]
    split <;> simp

theorem flipBit_replicate_zero {n i : Nat} (j : Nat) (hi : i < n) :
    flipBit (List.replicate n 0) i j = List.replicate i 0 ++ BitVec.twoPow 8 j :: List.replicate (n - (i + 1)) 0 := by
  rw [flipBit, List.modify_eq_take_cons_drop (by simpa using hi), List.take_replicate, List.drop_replicate, List.getElem_replicate,
    min_eq_left hi.le]
  simp

/-- With an odd polynomial two zero bytes take only the zero value to zero: a polynomial XORed in shows in bit 0. -/
theorem eq_zero_of_csumStep_zeros {c : Config} (hc : c.csumPoly.getLsbD 0 = true) {v : Half} (h : (csumStep c v 0 0).1 = 0) :
    v = 0 := by
  rw [csumStep_fst] at h
  have hmsb : v.msb = false := by
    have hbit := congrArg (·.getLsbD 0) h
    cases hm : v.msb with
    | false => rfl
    | true => simp [hm, -BitVec.getLsbD_eq_getElem, hc] at hbit
  have hdouble : v <<< 1 = 0 := by simpa [hmsb] using h
  have hlt := BitVec.msb_eq_false_iff_two_mul_lt.mp hmsb
  have hnat : (v <<< 1).toNat = 0 := congrArg BitVec.toNat hdouble
  rw [BitVec.toNat_shiftLeft, Nat.shiftLeft_eq] at hnat
  exact BitVec.eq_of_toNat_eq (show v.toNat = 0 by omega)

theorem csumFoldFrom_zeros_ne_zero {c : Config} (hc : c.csumPoly.getLsbD 0 = true) {v : Half} (hv : v ≠ 0) (k : Nat) :
    (csumFoldFrom c (v, 0) (List.replicate k 0)).1 ≠ 0 := by
  induction k generalizing v with
  | zero => exact hv
  | succ k ih =>
    rw [List.replicate_succ, csumFoldFrom_cons]
    exact ih fun h => hv (eq_zero_of_csumStep_zeros hc h)

theorem csumOf_singleton_ne_zero (c : Config) {e : Byte} (he : e ≠ 0) : csumOf c [e] ≠ 0 := by
  have hzero : 0#8 ++ 0#8 = (0 : Half) := BitVec.zero_append_zero
  rw [csumOf_singleton]
  exact fun h => he ((BitVec.append_left_inj 0#8).mp (h.trans hzero.symm))

theorem csumFold_byte_zero_ne_zero (c : Config) {e : Byte} (he : e ≠ 0) : (csumFold c [e, 0]).1 ≠ 0 := by
  have hzero : ((0 : Byte) ++ (0 : Byte)) ^^^ ((0 : Byte).setWidth 16 <<< 1) = (0 : Half) := by decide
  rw [csumFold_pair]
  exact fun h => he (twoByteState_injective (h.trans hzero.symm)).1

/-- One nonzero byte among zero bytes never has checksum 0: alone or with the next zero byte it leaves a nonzero value, and later zero
bytes keep it nonzero. -/
theorem csumOf_one_byte_ne_zero {c : Config} (hc : c.csumPoly.getLsbD 0 = true) {e : Byte} (he : e ≠ 0) (i k : Nat) :
    csumOf c (List.replicate i 0 ++ e :: List.replicate k 0) ≠ 0 := by
  rw [csumOf_zeros_append]
  cases k with
  | zero => exact csumOf_singleton_ne_zero c he
  | succ k =>
    intro h
    exact csumFoldFrom_zeros_ne_zero hc (csumFold_byte_zero_ne_zero c he) k (swap16_injective (h.trans swap16_zero.symm))

/-- With an odd polynomial every single-bit error changes the checksum: the difference is the checksum of the flipped bit alone. -/
theorem csumOf_flipBit_ne {c : Config} (hc : c.csumPoly.getLsbD 0 = true) {s : List Byte} {i j : Nat} (hi : i < s.length) (hj : j < 8) :
    csumOf c (flipBit s i j) ≠ csumOf c s := by
  have he : BitVec.twoPow 8 j ≠ 0 := fun h => by simpa [hj] using congrArg (·.getLsbD j) h
  rw [flipBit_eq_zipWith_xor, csumOf_xor c (by simp [flipBit]), flipBit_replicate_zero j hi]
  exact fun h => csumOf_one_byte_ne_zero hc he i _ ((BitVec.xor_right_inj _).mp (h.trans BitVec.xor_zero.symm))

/-! ### The statements -/

/-- Settles O17, by the closed form of the two-byte state. -/
theorem twoByteOrderShows : Obligations.TwoByteOrderShows := by
  refine ⟨fun a b => ⟨?_, fun hne h => hne (csumOf_pair_injective h).1, fun _ _ => csumOf_pair_injective⟩, ?_, ?_⟩
  · rw [csumFold_pair]
  · rw [csumOf_pair]; decide
  · rw [csumOf_pair]; decide

/-- Settles O18: the first byte is taken as it is, so zero bytes leave a fresh accumulator fresh. -/
theorem shortAndZeroSequences : Obligations.ShortAndZeroSequences := by
  intro c
  refine ⟨csumOf_nil c, fun b => ⟨csumFold_singleton c b, csumOf_singleton c b⟩, fun hd => ?_, csumStep_fresh c 0,
    csumOf_zeros_append c, csumOf_zeros c, ?_, ?_⟩
  · rw [payloadChecksumOk, csumOf_nil, beq_iff_eq, eq_comm]; rfl
  · rw [csumOf_pair]; decide
  · rw [csumOf_singleton]; decide

/-- Settles O19, by linearity of one update. -/
theorem checksumIsLinear : Obligations.ChecksumIsLinear := fun c _ _ h => csumOf_xor c h

/-- Settles O20: 0x8005 is odd. -/
theorem singleBitErrorsDetected : Obligations.SingleBitErrorsDetected :=
  ⟨fun _ _ _ hi hj => csumOf_flipBit_ne rfl hi hj, by decide⟩

end Sys2Proof.Machine
end

section
/-! The header checksum and the packets of the send side (spec/41_header_packet.md R78 to R87). -/

namespace Sys2Proof.Machine

/-! ### The header check and EncodeHeader on 16 received bytes -/

/-- A two-byte field, byte by byte. -/
theorem decodeUint_slice_pair {h : List Byte} {a : Nat} (hl : a + 2 ≤ h.length) :
    decodeUint (slice h a (a + 2)) 2 = 256 * (h.getD a 0).toNat + (h.getD (a + 1) 0).toNat := by
  have hpair : slice h a (a + 2) = [h.getD a 0, h.getD (a + 1) 0] := by
    rw [slice, List.drop_eq_getElem_cons (by omega), List.drop_eq_getElem_cons (by omega), Nat.add_sub_cancel_left,
      List.getD_eq_getElem h 0 (by omega), List.getD_eq_getElem h 0 (by omega)]
    rfl
  simp [hpair, decodeUint]

theorem validateHeaderChecksum_iff (c : Config) {h : List Byte} (hl : h.length = 16) :
    validateHeaderChecksum c h = true ↔
      (csumOf c (h.take 12)).toNat = 256 * (h.getD 12 0).toNat + (h.getD 13 0).toNat := by
  rw [validateHeaderChecksum, slice_zero, decodeUint_slice_pair (a := 12) (by omega), beq_iff_eq]

/-- Settles O21: the compared field is two bytes, big-endian, and twelve zero bytes have checksum 0 (R74). -/
theorem headerCheckCoversTwelveBytes : Obligations.HeaderCheckCoversTwelveBytes := by
  intro c h hl
  refine ⟨validateHeaderChecksum_iff c hl, (validateHeaderChecksum_iff c List.length_replicate).mpr ?_⟩
  rw [List.take_replicate, csumOf_zeros]
  rfl

/-- EncodeHeader reads every field but the stored header checksum. -/
theorem encodeHeader_congr_headerChecksum (c : Config) (hd : Header) (x : Half) :
    encodeHeader c { hd with headerChecksum := x } = encodeHeader c hd := rfl

theorem encodeHeader_decodeHeader (c : Config) {h : List Byte} (hl : h.length = 16) :
    encodeHeader c (decodeHeader h) = h.take 12 ++ uintBytes 2 (csumOf c (h.take 12)).toNat ++ h.drop 14 := by
  have hpay : uintBytes 2 (decodeHeader h).payloadChecksum.toNat = h.drop 14 := calc
    _ = slice h 14 16 := uintBytes_field (a := 14) (w := 2) (n := 16) rfl hl.ge
    _ = h.drop 14 := List.take_of_length_le (by rw [List.length_drop]; omega)
  rw [encodeHeader, headerFields_decodeHeader hl.ge, hpay]

/-- Settles O22: the two directions of the header codec, and the check of a fresh checksum. -/
theorem encodeHeaderRecomputesChecksum : Obligations.EncodeHeaderRecomputesChecksum := fun c hd =>
  ⟨encodeHeader_length c hd, validateHeaderChecksum_encodeHeader c hd, decodeHeader_encodeHeader c hd,
    encodeHeader_congr_headerChecksum c hd, fun _ hl => encodeHeader_decodeHeader c hl⟩

/-! ### FromFields and ToBytes -/

/-- The domain of FromFields (R87). -/
def inSendDomain (v o t : Nat) (payload : List Byte) : Prop :=
  v < 2 ^ 32 ∧ o < 2 ^ 16 ∧ t < 2 ^ 16 ∧ payload.length ≤ 2 ^ 32 - 1

/-- What R82 says of the packet of a call; it leaves the headerChecksum unset (log entry 9). -/
structure Carries (c : Config) (v o t : Nat) (payload : List Byte) (p : Packet) : Prop where
  payload_eq : p.payload = payload
  version : p.header.version.toNat = v
  operation : p.header.operation.toNat = o
  tag : p.header.tag.toNat = t
  payloadLength : p.header.payloadLength.toNat = payload.length
  payloadChecksum : p.header.payloadChecksum = csumOf c payload

theorem Carries.wf {p : Packet} {c : Config} {v o t : Nat} {payload : List Byte} (h : Carries c v o t payload p) :
    p.wf = true := by
  rw [Packet.wf, h.payload_eq, h.payloadLength, beq_self_eq_true]

/-- The four tests of FromFields are the four bounds of its domain. -/
theorem fromFields_cases (c : Config) (v o t : Nat) (payload : List Byte) :
    (inSendDomain v o t payload ∧ ∃ p, fromFields c v o t payload = .ok p ∧ Carries c v o t payload p) ∨
    (¬inSendDomain v o t payload ∧ ∃ e, fromFields c v o t payload = .error e) := by
  unfold fromFields inSendDomain
  split_ifs with hv ho ht hl
  case neg =>
    refine .inl ⟨by omega, _, rfl, rfl, ?_, ?_, ?_, ?_, rfl⟩
    all_goals exact (BitVec.toNat_ofNat _ _).trans (Nat.mod_eq_of_lt (by omega))
  all_goals exact .inr ⟨by omega, _, rfl⟩

theorem fromFields_ok (c : Config) {v o t : Nat} {payload : List Byte} (h : inSendDomain v o t payload) :
    ∃ p, fromFields c v o t payload = .ok p ∧ Carries c v o t payload p := by
  obtain ⟨-, hok⟩ | ⟨hdom, -⟩ := fromFields_cases c v o t payload
  · exact hok
  · exact absurd h hdom

theorem fromFields_error (c : Config) {v o t : Nat} {payload : List Byte} (h : ¬inSendDomain v o t payload) :
    ∃ e, fromFields c v o t payload = .error e := by
  obtain ⟨hdom, -⟩ | ⟨-, herr⟩ := fromFields_cases c v o t payload
  · exact absurd hdom h
  · exact herr

theorem carries_of_fromFields {c : Config} {v o t : Nat} {payload : List Byte} {p : Packet}
    (h : fromFields c v o t payload = .ok p) : Carries c v o t payload p := by
  obtain ⟨-, q, hq, hcarries⟩ | ⟨-, e, he⟩ := fromFields_cases c v o t payload
  · obtain rfl : q = p := Except.ok.inj (hq.symm.trans h)
    exact hcarries
  · cases he.symm.trans h

theorem toBytes_length (c : Config) (p : Packet) : (toBytes c p).length = 16 + p.payload.length := by
  rw [toBytes, List.length_append, encodeHeader_length]

theorem toBytes_take (c : Config) (p : Packet) : (toBytes c p).take 16 = encodeHeader c p.header :=
  List.take_left' (encodeHeader_length c _)

theorem toBytes_drop (c : Config) (p : Packet) : (toBytes c p).drop 16 = p.payload :=
  List.drop_left' (encodeHeader_length c _)

/-- Settles O24: inside the domain the call answers a packet that carries its arguments, outside it an error. -/
theorem fromFieldsDomain : Obligations.FromFieldsDomain := by
  intro c v o t payload
  refine ⟨fun hdom => ?_, fromFields_error c⟩
  obtain ⟨p, hok, hp⟩ := fromFields_ok c hdom
  have hpay := hp.payload_eq
  exact ⟨p, hok, hpay, hp.wf, hp.version, hp.operation, hp.tag, hp.payloadLength, hp.payloadChecksum,
    hpay ▸ toBytes_length c p, toBytes_take c p, hpay ▸ toBytes_drop c p⟩

/-- Both checksums of a sent packet are right, so only the length bound is left of ValidFrame. -/
theorem validFrame_toBytes_of_carries {c : Config} {v o t : Nat} {payload : List Byte} {p : Packet}
    (h : Carries c v o t payload p) : validFrame c (toBytes c p) = true ↔ payload.length ≤ c.maxPayload := by
  rw [validFrame_toBytes_iff c h.wf, h.payload_eq, h.payloadLength, h.payloadChecksum, and_iff_left rfl]

/-- Settles O25: the block's length bound is 4080. -/
theorem sentFramesAreValid : Obligations.SentFramesAreValid := fun _ _ _ _ _ h =>
  validFrame_toBytes_of_carries (carries_of_fromFields h)

/-! ### A frame received from a header start -/

theorem validFrame_iff (c : Config) (f : List Byte) :
    validFrame c f = true ↔
      16 ≤ f.length ∧ validateHeaderChecksum c (f.take 16) = true ∧
      (decodeHeader (f.take 16)).payloadLength.toNat ≤ c.maxPayload ∧
      f.length = 16 + (decodeHeader (f.take 16)).payloadLength.toNat ∧
      csumOf c (f.drop 16) = (decodeHeader (f.take 16)).payloadChecksum := by
  simp only [validFrame, slice_zero, Bool.and_eq_true, decide_eq_true_eq, beq_iff_eq, and_assoc]

theorem framePacket_eq (f : List Byte) : framePacket f = fromWire (decodeHeader (f.take 16)) (f.drop 16) := by
  rw [framePacket, slice_zero]

/-- A delivery leaves FRX at a header start: whatever it had buffered and pending on the way is gone. -/
theorem deliver_of_atHeaderStart {s : State} (hs : s.atHeaderStart) (buf : List Byte) (pend : Option Header) (p : Packet) :
    State.deliver { s with rxBuf := buf, rxPend := pend } p = { s with deliveries := s.deliveries ++ [p] } := by
  obtain ⟨-, hp, hb⟩ := hs
  rw [hp, hb]
  rfl

/-- A header that passes the checks of R91 is settled at once when its payload is empty (R92), and is pending otherwise (R93). -/
theorem headerComplete_of_valid {c : Config} {s : State} (hv : validateHeaderChecksum c s.rxBuf = true)
    (hbound : (decodeHeader s.rxBuf).payloadLength.toNat ≤ c.maxPayload) :
    headerComplete c s =
      if (decodeHeader s.rxBuf).payloadLength = 0 then
        if payloadChecksumOk c (decodeHeader s.rxBuf) [] then s.deliver (fromWire (decodeHeader s.rxBuf) [])
        else s.discard .payloadCsum 16
      else s.bufClear.setPend (some (decodeHeader s.rxBuf)) := by
  rw [headerComplete, hv, (oversized_eq_false_iff c _).mpr hbound]
  rfl

/-- A valid frame fed from a header start is delivered, and nothing else changes (42_unpacker.md R100). -/
theorem feed_validFrame {f : List Byte} {s : State} (hf : validFrame Config.block f = true) (hs : s.atHeaderStart) :
    feed f s = { s with deliveries := s.deliveries ++ [framePacket f] } := by
  obtain ⟨hmin, hv, hbound, hlen, hsum⟩ := (validFrame_iff _ f).mp hf
  have ⟨_, hp, hb⟩ := hs
  have hok : payloadChecksumOk Config.block (decodeHeader (f.take 16)) (f.drop 16) = true := beq_iff_eq.mpr hsum
  have hpay : (f.drop 16).length = (decodeHeader (f.take 16)).payloadLength.toNat := by rw [List.length_drop]; omega
  have hheader := (feed_header hp hb (List.length_take_of_le hmin)).trans (headerComplete_of_valid hv hbound)
  rw [framePacket_eq]
  conv_lhs => rw [← List.take_append_drop 16 f, feed_append, hheader]
  by_cases hz : (decodeHeader (f.take 16)).payloadLength = 0
  · have hnil : f.drop 16 = [] := List.length_eq_zero_iff.mp (by rw [hpay, hz]; rfl)
    rw [hnil] at hok ⊢
    rw [if_pos hz, if_pos hok, feed_nil]
    exact deliver_of_atHeaderStart hs _ s.rxPend _
  · rw [if_neg hz, feed_payload rfl rfl hpay (hpay ▸ payloadLength_pos hz), payloadComplete, if_pos hok]
    exact deliver_of_atHeaderStart hs _ _ _

theorem framePacket_toBytes (c : Config) (hd : Header) (payload : List Byte) :
    framePacket (toBytes c ⟨hd, payload⟩) = ⟨{ hd with headerChecksum := csumOf c (headerFields hd) }, payload⟩ := by
  rw [framePacket_eq, toBytes_take, toBytes_drop, decodeHeader_encodeHeader, fromWire]

/-- RX.FRAME feeds the bytes of the packet that FromFields makes (30_encoding.md R63). -/
theorem expandPseudo_rxFrame {c : Config} {v o t : Nat} {payload : List Byte} {p : Packet}
    (h : fromFields c v o t payload = .ok p) : expandPseudo c (.rxFrame v o t payload) = .ok (rxFeed (toBytes c p)) := by
  simp only [expandPseudo, h]

/-- Settles O37: the bytes sent are a valid frame, which is delivered as the packet sent with its header checksum recomputed. -/
theorem frameRoundTrip : Obligations.FrameRoundTrip := by
  intro v o t payload s hv ho ht hl hs
  have ⟨hpow, _, _⟩ := hs
  have hdom : inSendDomain v o t payload := ⟨hv, ho, ht, by omega⟩
  obtain ⟨p, hok, hp⟩ := fromFields_ok Config.block hdom
  have hfeed := feed_validFrame ((validFrame_toBytes_of_carries hp).mpr hl) hs
  exact ⟨_, framePacket (toBytes Config.block p), { p.header with headerChecksum := csumOf Config.block (headerFields p.header) },
    expandPseudo_rxFrame hok, (runInstrs_rxFeed _ hpow).trans (congrArg _ hfeed),
    hp.payload_eq ▸ framePacket_toBytes _ p.header p.payload, hp.version, hp.operation, hp.tag, hp.payloadLength, rfl, hp.payloadChecksum⟩

end Sys2Proof.Machine
end

section
/-! RX.BYTE and RX.RESET, one step at a time (spec/42_unpacker.md R90 to R97, R107). -/

namespace Sys2Proof.Machine

/-! ### The byte that completes a header -/

/-- A discard in AwaitingHeader changes the buffer and the log alone. -/
theorem bufAppend_discard_of_rxPend_none {s : State} (hp : s.rxPend = none) (b : Byte) (r : DiscardReason) (n : Nat) :
    (s.bufAppend b).discard r n = { s with rxBuf := [], discards := s.discards ++ [⟨r, n⟩] } := by
  rw [hp]; rfl

/-- A delivery in AwaitingHeader changes the buffer and the deliveries alone. -/
theorem bufAppend_deliver_of_rxPend_none {s : State} (hp : s.rxPend = none) (b : Byte) (p : Packet) :
    (s.bufAppend b).deliver p = { s with rxBuf := [], deliveries := s.deliveries ++ [p] } := by
  rw [hp]; rfl

theorem exec_rxByte_completesHeader (b : Byte) {s : State} (hs : s.poweredUp = true) (hp : s.rxPend = none)
    (hl : s.rxBuf.length + 1 = 16) :
    exec (.rxByte b) s = .next (headerComplete Config.block (s.bufAppend b)) := by
  rw [exec_of_poweredUp _ hs, effect, rxByteEffect_of_none _ b hp, if_neg (by omega)]

theorem headerComplete_of_badChecksum {c : Config} {s : State} (hv : validateHeaderChecksum c s.rxBuf = false) :
    headerComplete c s = s.discard .hdrCsum 16 := by
  rw [headerComplete, hv]; rfl

theorem headerComplete_of_oversized {c : Config} {s : State} (hv : validateHeaderChecksum c s.rxBuf = true)
    (ho : oversized c (decodeHeader s.rxBuf) = true) : headerComplete c s = s.discard .oversize 16 := by
  rw [headerComplete, hv, ho]; rfl

theorem oversized_eq_true_iff (c : Config) (hd : Header) : oversized c hd = true ↔ c.maxPayload < hd.payloadLength.toNat := by
  simp [oversized]

/-- The length field, byte by byte. -/
theorem payloadLength_decodeHeader {h : List Byte} (hl : h.length = 16) :
    (decodeHeader h).payloadLength.toNat =
      256 ^ 3 * (h.getD 8 0).toNat + 256 ^ 2 * (h.getD 9 0).toNat + 256 * (h.getD 10 0).toNat + (h.getD 11 0).toNat := by
  obtain ⟨hsum, hlt⟩ := decodeUintIsBigEndianSum (slice h 8 12) 4 (by rw [slice_length]; omega)
  have hbyte (k : Nat) (hk : k < 4) : (slice h 8 12).getD k 0 = h.getD (8 + k) 0 := (getD_add_of_slice hk).symm
  have hrange : List.range 4 = [0, 1, 2, 3] := rfl
  rw [decodeHeader, BitVec.toNat_ofNat, Nat.mod_eq_of_lt hlt, hsum, hrange]
  simp only [List.map_cons, List.map_nil, List.sum_cons, List.sum_nil, hbyte 0 (by decide), hbyte 1 (by decide),
    hbyte 2 (by decide), hbyte 3 (by decide), Nat.reduceAdd, Nat.reduceSub]
  ring

/-- The payload check of an empty payload (42_unpacker.md R92, 40_checksum.md R73). -/
theorem payloadChecksumOk_nil_iff (c : Config) (hd : Header) : payloadChecksumOk c hd [] = true ↔ hd.payloadChecksum = 0x0000 := by
  obtain ⟨-, -, h, -⟩ := shortAndZeroSequences c
  exact h hd

theorem payloadChecksumOk_iff (c : Config) (hd : Header) (payload : List Byte) :
    payloadChecksumOk c hd payload = true ↔ csumOf c payload = hd.payloadChecksum := beq_iff_eq

/-! ### Any byte -/

/-- The outcomes of an RX.BYTE: the byte waits in the buffer, or the buffer is cleared by a delivery, a discard or an accepted header. -/
theorem rxByteEffect_outcome (c : Config) (b : Byte) (s : State) :
    rxByteEffect c b s = s.bufAppend b ∨ (∃ p, rxByteEffect c b s = (s.bufAppend b).deliver p) ∨
      (∃ r n, rxByteEffect c b s = (s.bufAppend b).discard r n) ∨
      ∃ hd, rxByteEffect c b s = (s.bufAppend b).bufClear.setPend (some hd) := by
  obtain ⟨-, -, h⟩ | ⟨-, -, h⟩ | ⟨_, -, -, h⟩ | ⟨_, -, -, -, h⟩ | ⟨_, -, -, -, h⟩ := rxByteEffect_cases c b s
  case inr.inl =>
    rw [h]
    obtain ⟨-, h'⟩ | ⟨-, -, h'⟩ | ⟨-, -, -, -, h'⟩ | ⟨-, -, -, -, h'⟩ | ⟨-, -, -, h'⟩ := headerComplete_cases c (s.bufAppend b)
    · exact .inr (.inr (.inl ⟨_, _, h'⟩))
    · exact .inr (.inr (.inl ⟨_, _, h'⟩))
    · exact .inr (.inl ⟨_, h'⟩)
    · exact .inr (.inr (.inl ⟨_, _, h'⟩))
    · exact .inr (.inr (.inr ⟨_, h'⟩))
  · exact .inl h
  · exact .inl h
  · exact .inr (.inl ⟨_, h⟩)
  · exact .inr (.inr (.inl ⟨_, _, h⟩))

/-! ### The statements -/

/-- Settles O26, by the two branches of RX.BYTE that only buffer. -/
theorem rxByteBuffersIncompleteBytes : Obligations.RxByteBuffersIncompleteBytes := by
  intro b s hs
  refine ⟨fun hp hl => ?_, fun hd hp hl => ?_⟩
  · rw [exec_of_poweredUp _ hs, effect, rxByteEffect_of_none _ b hp, if_pos hl, State.bufAppend]
  · rw [exec_of_poweredUp _ hs, effect, rxByteEffect_of_some _ b hp, if_pos hl, State.bufAppend]

/-- Settles O27: the two checks of a completed header, read byte by byte. -/
theorem rxByteDiscardsBadHeader : Obligations.RxByteDiscardsBadHeader := by
  intro b s hs hp hl
  have h16 : (s.rxBuf ++ [b]).length = 16 := List.length_append.trans hl
  have hsum := validateHeaderChecksum_iff Config.block h16
  have hlen := payloadLength_decodeHeader h16
  rw [exec_rxByte_completesHeader b hs hp hl]
  dsimp only
  rw [← hlen]
  refine ⟨fun hbad => congrArg _ ?_, fun hok hlong => congrArg _ ?_⟩
  · have hv := Bool.eq_false_iff.mpr (hsum.not.mpr hbad)
    exact (headerComplete_of_badChecksum (s := s.bufAppend b) hv).trans (bufAppend_discard_of_rxPend_none hp b _ _)
  · have ho := (oversized_eq_true_iff Config.block _).mpr hlong
    exact (headerComplete_of_oversized (s := s.bufAppend b) (hsum.mpr hok) ho).trans (bufAppend_discard_of_rxPend_none hp b _ _)

/-- Settles O28: the checksum of the empty payload is 0. -/
theorem rxByteSettlesEmptyPayload : Obligations.RxByteSettlesEmptyPayload := by
  intro b s hs hp hl h hv hz
  have hbound : (decodeHeader h).payloadLength.toNat ≤ Config.block.maxPayload := by rw [hz]; exact Nat.zero_le _
  have hsum := payloadChecksumOk_nil_iff Config.block (decodeHeader h)
  have heq := (headerComplete_of_valid (s := s.bufAppend b) hv hbound).trans (if_pos hz)
  rw [exec_rxByte_completesHeader b hs hp hl, heq]
  refine ⟨fun hok => congrArg _ ?_, fun hbad => congrArg _ ?_⟩
  · exact (if_pos (hsum.mpr hok)).trans (bufAppend_deliver_of_rxPend_none hp b _)
  · exact (if_neg (hsum.not.mpr hbad)).trans (bufAppend_discard_of_rxPend_none hp b _ _)

/-- Settles O29: a declared length of at least 1 is not 0. -/
theorem rxByteAcceptsHeader : Obligations.RxByteAcceptsHeader := by
  intro b s hs hp hl h len hv hmin hmax
  have hz : (decodeHeader h).payloadLength ≠ 0 := fun h0 => by
    rw [show len = 0 from congrArg BitVec.toNat h0] at hmin
    omega
  exact (exec_rxByte_completesHeader b hs hp hl).trans
    (congrArg _ ((headerComplete_of_valid (s := s.bufAppend b) hv hmax).trans (if_neg hz)))

/-- Settles O30, by the branch of RX.BYTE that completes a payload. -/
theorem rxByteCompletesPayload : Obligations.RxByteCompletesPayload := by
  intro b s hd hs hp hl payload
  have hexec : exec (.rxByte b) s = .next (payloadComplete Config.block hd (s.bufAppend b)) := by
    rw [exec_of_poweredUp _ hs, effect, rxByteEffect_of_some _ b hp, if_neg (by omega)]
  rw [hexec, ← payloadChecksumOk_iff, ne_eq, ← payloadChecksumOk_iff, payloadComplete]
  refine ⟨fun hok => ?_, fun hbad => ?_⟩
  · rw [State.bufAppend_rxBuf, if_pos hok]; rfl
  · rw [State.bufAppend_rxBuf, if_neg hbad]; rfl

/-- Settles O31: of the four outcomes only a delivery and a discard add an entry, and both clear FRX. -/
theorem rxByteTotalWithOneOutcome : Obligations.RxByteTotalWithOneOutcome := by
  intro b s hs
  have hexec := exec_of_poweredUp (.rxByte b) hs
  rw [effect] at hexec
  obtain h | ⟨p, h⟩ | ⟨r, n, h⟩ | ⟨hd, h⟩ := rxByteEffect_outcome Config.block b s
  all_goals rw [h] at hexec
  · exact ⟨_, [], [], hexec, by simp, by simp, rfl, rfl, by simp, .inl rfl, by simp⟩
  · exact ⟨_, [p], [], hexec, rfl, by simp, rfl, rfl, by simp, .inr rfl, fun _ => ⟨rfl, rfl⟩⟩
  · exact ⟨_, [], [⟨r, n⟩], hexec, by simp, rfl, rfl, rfl, by simp, .inr rfl, fun _ => ⟨rfl, rfl⟩⟩
  · exact ⟨_, [], [], hexec, by simp, by simp, rfl, rfl, by simp, .inr rfl, by simp⟩

/-- Settles O32: the cleared receiver is cleared again. -/
theorem rxResetAbandonsStream : Obligations.RxResetAbandonsStream := by
  refine ⟨rfl, fun s => ⟨fun hs => ?_, exec_onlyFaults rfl⟩⟩
  have hreset := exec_of_poweredUp .rxReset hs
  refine ⟨hreset, (runInstrs_pair .rxReset .rxReset hs).trans hreset.symm, fun t ht => ?_⟩
  rw [hreset] at ht
  injection ht with ht
  exact State.fsm_of_none (ht ▸ rfl)

end Sys2Proof.Machine
end


section
/-! Streams of bytes (spec/42_unpacker.md R96, R98, R100 to R102): chunks, frames, header starts, and what a discarded header leaves. -/

namespace Sys2Proof.Machine

/-! ### Back at a header start -/

/-- A discard leaves FRX at a header start: whatever it had buffered and pending on the way is gone. -/
theorem discard_of_atHeaderStart {s : State} (hs : s.atHeaderStart) (buf : List Byte) (pend : Option Header) (r : DiscardReason)
    (n : Nat) : State.discard { s with rxBuf := buf, rxPend := pend } r n = { s with discards := s.discards ++ [⟨r, n⟩] } := by
  obtain ⟨-, hp, hb⟩ := hs
  rw [hp, hb]
  rfl

theorem payloadComplete_atHeaderStart {c : Config} {hd : Header} {s : State} (hs : s.poweredUp = true) :
    (payloadComplete c hd s).atHeaderStart := by
  rw [payloadComplete]
  split
  · exact ⟨hs, rfl, rfl⟩
  · exact ⟨hs, rfl, rfl⟩

/-! ### Counting to the next header start -/

theorem nextHeaderStart_eq (c : Config) (stream : List Byte) :
    nextHeaderStart c stream =
      if validateHeaderChecksum c (stream.take 16) = true ∧ (decodeHeader (stream.take 16)).payloadLength.toNat ≤ c.maxPayload then
        16 + (decodeHeader (stream.take 16)).payloadLength.toNat
      else 16 := by
  simp [nextHeaderStart, slice_zero, headerSize_eq, oversized]

/-- The first 16 bytes from a header start: the next header start, or a pending header that declares how far it is. -/
theorem feed_take_header {stream : List Byte} {s : State} (hs : s.atHeaderStart) (hl : 16 ≤ stream.length) :
    (nextHeaderStart Config.block stream = 16 ∧ (feed (stream.take 16) s).atHeaderStart) ∨
    ∃ hd, hd.payloadLength ≠ 0 ∧ nextHeaderStart Config.block stream = 16 + hd.payloadLength.toNat ∧
      feed (stream.take 16) s = { s with rxPend := some hd } := by
  have ⟨hpow, hp, hb⟩ := hs
  rw [nextHeaderStart_eq, feed_header hp hb (List.length_take_of_le hl)]
  obtain ⟨hv, h⟩ | ⟨hv, ho, h⟩ | ⟨-, -, hz, -, h⟩ | ⟨-, -, hz, -, h⟩ | ⟨hv, ho, hz, h⟩ :=
    headerComplete_cases Config.block { s with rxBuf := stream.take 16 }
  all_goals rw [h]
  · exact .inl ⟨if_neg (by simp [hv]), hpow, rfl, rfl⟩
  · exact .inl ⟨if_neg (by rw [← oversized_eq_false_iff, ho]; simp), hpow, rfl, rfl⟩
  · exact .inl ⟨by simp [hz], hpow, rfl, rfl⟩
  · exact .inl ⟨by simp [hz], hpow, rfl, rfl⟩
  · refine .inr ⟨_, hz, if_pos ⟨hv, (oversized_eq_false_iff _ _).mp ho⟩, ?_⟩
    rw [State.bufClear, hb]
    rfl

/-- Short of the next header start the bytes only wait, as part of a header or of the payload of a pending one. -/
theorem feed_take_of_lt_nextHeaderStart {stream : List Byte} {s : State} {n : Nat} (hs : s.atHeaderStart) (hl : 16 ≤ stream.length)
    (hlt : n < nextHeaderStart Config.block stream) :
    (n < 16 ∧ feed (stream.take n) s = { s with rxBuf := stream.take n }) ∨
    ∃ hd buf, feed (stream.take n) s = { s with rxBuf := buf, rxPend := some hd } := by
  have ⟨_, hp, hb⟩ := hs
  by_cases hlt16 : n < 16
  · left
    refine ⟨hlt16, ?_⟩
    rw [feed_header_part hp (by simp [hb]; omega), hb, List.nil_append]
  · right
    obtain ⟨h16, -⟩ | ⟨hd, -, hnext, hfeed⟩ := feed_take_header hs hl
    · omega
    · refine ⟨hd, (stream.drop 16).take (n - 16), ?_⟩
      rw [show n = 16 + (n - 16) by omega, List.take_add, feed_append, hfeed, Nat.add_sub_cancel_left,
        feed_payload_part rfl (by simp [hb]; omega), hb, List.nil_append]

theorem feed_take_nextHeaderStart {stream : List Byte} {s : State} (hs : s.atHeaderStart) (hl : 16 ≤ stream.length)
    (hn : nextHeaderStart Config.block stream ≤ stream.length) :
    (feed (stream.take (nextHeaderStart Config.block stream)) s).atHeaderStart := by
  have ⟨hpow, _, hb⟩ := hs
  obtain ⟨h16, hstart⟩ | ⟨hd, hz, hnext, hfeed⟩ := feed_take_header hs hl
  · rwa [h16]
  · have hlen : ((stream.drop 16).take hd.payloadLength.toNat).length = hd.payloadLength.toNat := by
      rw [List.length_take, List.length_drop]; omega
    have hpay := feed_payload (s := { s with rxPend := some hd }) rfl hb hlen (by rw [hlen]; exact payloadLength_pos hz)
    rw [hnext, List.take_add, feed_append, hfeed, hpay]
    exact payloadComplete_atHeaderStart hpow

/-! ### Valid frames -/

theorem feed_validFrames {fs : List (List Byte)} {s : State} (hfs : ∀ f ∈ fs, validFrame Config.block f = true)
    (hs : s.atHeaderStart) : feed fs.flatten s = { s with deliveries := s.deliveries ++ fs.map framePacket } := by
  induction fs generalizing s with
  | nil => simp
  | cons f fs ih =>
    obtain ⟨hf, hfs⟩ := List.forall_mem_cons.mp hfs
    rw [List.flatten_cons, feed_append, feed_validFrame hf hs, ih (s := { s with deliveries := s.deliveries ++ [framePacket f] }) hfs hs]
    simp

theorem nextHeaderStart_of_validFrame {c : Config} {f : List Byte} (hf : validFrame c f = true) : nextHeaderStart c f = f.length := by
  obtain ⟨-, hv, hbound, hlen, -⟩ := (validFrame_iff c f).mp hf
  rw [nextHeaderStart_eq, if_pos ⟨hv, hbound⟩, hlen]

/-- Until its last byte a valid frame has no outcome (42_unpacker.md R100). -/
theorem feed_validFrame_dropLast {f : List Byte} {s : State} (hf : validFrame Config.block f = true) (hs : s.atHeaderStart) :
    (feed f.dropLast s).deliveries = s.deliveries ∧ (feed f.dropLast s).discards = s.discards := by
  obtain ⟨hmin, -⟩ := (validFrame_iff _ f).mp hf
  have hlt : f.length - 1 < nextHeaderStart Config.block f := by rw [nextHeaderStart_of_validFrame hf]; omega
  rw [List.dropLast_eq_take]
  obtain ⟨-, h⟩ | ⟨_, _, h⟩ := feed_take_of_lt_nextHeaderStart hs hmin hlt
  · rw [h]; exact ⟨rfl, rfl⟩
  · rw [h]; exact ⟨rfl, rfl⟩

/-! ### The discard log is written and never read -/

/-- The state without its discard log, which is model-only (10_state.md R29). -/
def State.eraseDiscards (s : State) : State := { s with discards := [] }

theorem headerComplete_eraseDiscards (c : Config) (s : State) :
    (headerComplete c s.eraseDiscards).eraseDiscards = (headerComplete c s).eraseDiscards := by
  simp only [headerComplete, apply_ite State.eraseDiscards]
  rfl

theorem payloadComplete_eraseDiscards (c : Config) (hd : Header) (s : State) :
    (payloadComplete c hd s.eraseDiscards).eraseDiscards = (payloadComplete c hd s).eraseDiscards := by
  simp only [payloadComplete, apply_ite State.eraseDiscards]
  rfl

theorem rxByteEffect_eraseDiscards (c : Config) (b : Byte) (s : State) :
    (rxByteEffect c b s.eraseDiscards).eraseDiscards = (rxByteEffect c b s).eraseDiscards := by
  cases hp : s.rxPend with
  | none =>
    simp only [rxByteEffect_of_none c b hp, rxByteEffect_of_none c b (s := s.eraseDiscards) hp, apply_ite State.eraseDiscards,
      ← headerComplete_eraseDiscards c (s.bufAppend b)]
    rfl
  | some hd =>
    simp only [rxByteEffect_of_some c b hp, rxByteEffect_of_some c b (s := s.eraseDiscards) hp, apply_ite State.eraseDiscards,
      ← payloadComplete_eraseDiscards c hd (s.bufAppend b)]
    rfl

theorem feed_eraseDiscards (bs : List Byte) (s : State) :
    (feed bs s.eraseDiscards).eraseDiscards = (feed bs s).eraseDiscards := by
  induction bs generalizing s with
  | nil => rfl
  | cons b bs ih => rw [feed_cons, feed_cons, ← ih, rxByteEffect_eraseDiscards, ih]

theorem eq_of_eraseDiscards_eq {s t : State} (h : s.eraseDiscards = t.eraseDiscards) :
    s.rxBuf = t.rxBuf ∧ s.rxPend = t.rxPend ∧ s.deliveries = t.deliveries :=
  ⟨(congrArg State.rxBuf h :), (congrArg State.rxPend h :), (congrArg State.deliveries h :)⟩

/-- A header that R91 rejects leaves one record in the discard log and nothing else. -/
theorem feed_rejectedHeader {h : List Byte} {s : State} (hs : s.atHeaderStart) (hl : h.length = 16)
    (hbad : validateHeaderChecksum Config.block h = false ∨ oversized Config.block (decodeHeader h) = true) :
    ∃ r, feed h s = { s with discards := s.discards ++ [⟨r, 16⟩] } := by
  have ⟨_, hp, hb⟩ := hs
  rw [feed_header hp hb hl]
  cases hv : validateHeaderChecksum Config.block h with
  | false =>
    exact ⟨.hdrCsum, (headerComplete_of_badChecksum (s := { s with rxBuf := h }) hv).trans (discard_of_atHeaderStart hs h s.rxPend _ _)⟩
  | true =>
    have ho := hbad.resolve_left (by simp [hv])
    exact ⟨.oversize,
      (headerComplete_of_oversized (s := { s with rxBuf := h }) hv ho).trans (discard_of_atHeaderStart hs h s.rxPend _ _)⟩

theorem feed_rejectedHeader_append {h : List Byte} {s : State} (hs : s.atHeaderStart) (hl : h.length = 16)
    (hbad : validateHeaderChecksum Config.block h = false ∨ oversized Config.block (decodeHeader h) = true) (r : List Byte) :
    (feed (h ++ r) s).eraseDiscards = (feed r s).eraseDiscards := by
  obtain ⟨_, hfeed⟩ := feed_rejectedHeader hs hl hbad
  rw [feed_append, hfeed, ← feed_eraseDiscards, ← feed_eraseDiscards r s]
  rfl

/-! ### The statements -/

/-- Settles O34, by induction on the chunks: a chunk completes, and the rest starts from the state it leaves. -/
theorem chunkingInvariance : Obligations.ChunkingInvariance := by
  intro chunks s
  refine ⟨List.map_flatten.symm, ?_⟩
  induction chunks generalizing s with
  | nil => rfl
  | cons ch chunks ih =>
    rw [List.flatten_cons, rxFeed_append, runInstrs_append (runInstrs_eq _ s), ← ih, List.foldl_cons]
    simp only [runInstrs_eq]

/-- Settles O36: each frame is delivered and leaves a header start, and a frame short of its last byte only waits. -/
theorem alignedFramesDelivered : Obligations.AlignedFramesDelivered := by
  intro fs s hs hfs
  have ⟨hpow, _, _⟩ := hs
  have hframes := feed_validFrames hfs hs
  refine ⟨fun r => ?_, fun f t hf ht => ?_⟩
  · rw [rxFeed_append, runInstrs_append (runInstrs_rxFeed _ hpow), hframes]
  · rw [runInstrs_rxFeed _ hpow, feed_append, hframes] at ht
    injection ht with ht
    rw [← ht]
    exact feed_validFrame_dropLast hf hs

/-- Settles O38: at the counted place FRX is at a header start, and before it something is buffered or a header is pending. -/
theorem alignmentByCounting : Obligations.AlignmentByCounting := by
  intro stream s hs hl
  have ⟨hpow, _, _⟩ := hs
  refine ⟨nextHeaderStart_eq _ stream, fun n t hn ht => ?_⟩
  rw [runInstrs_rxFeed _ hpow] at ht
  injection ht with ht
  subst ht
  refine ⟨fun heq => ?_, fun hpos hlt => ?_⟩
  · subst heq
    exact feed_take_nextHeaderStart hs hl hn
  · rintro ⟨-, hpend, hbuf⟩
    obtain ⟨-, h⟩ | ⟨_, _, h⟩ := feed_take_of_lt_nextHeaderStart hs hl hlt
    · have hempty : (stream.take n).length = 0 := List.length_eq_zero_iff.mpr ((congrArg State.rxBuf h).symm.trans hbuf)
      rw [List.length_take_of_le hn] at hempty
      omega
    · simp [h] at hpend

/-- Settles O39: a discarded header leaves its record in the log, and no step reads the log. -/
theorem discardedHeaderForgotten : Obligations.DiscardedHeaderForgotten := by
  intro h h' r s t t' hs hl hl' hbad hbad' ht ht'
  have ⟨hpow, _, _⟩ := hs
  rw [runInstrs_rxFeed _ hpow] at ht ht'
  injection ht with ht
  injection ht' with ht'
  have hr : t.eraseDiscards = (feed r s).eraseDiscards := ht ▸ feed_rejectedHeader_append hs hl hbad r
  have hr' : t'.eraseDiscards = (feed r s).eraseDiscards := ht' ▸ feed_rejectedHeader_append hs hl' hbad' r
  obtain ⟨hbuf, hpend, hdel⟩ := eq_of_eraseDiscards_eq (hr.trans hr'.symm)
  exact ⟨hbuf, hpend, hdel, _, runInstrs_rxFeed r hpow, eq_of_eraseDiscards_eq hr⟩

end Sys2Proof.Machine
end


section
/-! A valid frame with one bit flipped (spec/42_unpacker.md R106). -/

namespace Sys2Proof.Machine

/-! ### Where a flipped bit shows -/

@[simp] theorem flipBit_length (s : List Byte) (i j : Nat) : (flipBit s i j).length = s.length := List.length_modify _ _ _

theorem flipBit_of_length_le {s : List Byte} {i : Nat} (h : s.length ≤ i) (j : Nat) : flipBit s i j = s := List.modify_eq_self h

/-- A flip shows in the checksum, so it shows. -/
theorem flipBit_ne {s : List Byte} {i j : Nat} (hi : i < s.length) (hj : j < 8) : flipBit s i j ≠ s :=
  fun h => csumOf_flipBit_ne (c := Config.block) rfl hi hj (congrArg _ h)

theorem take_flipBit (s : List Byte) (i j n : Nat) : (flipBit s i j).take n = flipBit (s.take n) i j := List.take_modify _ _ _ _

theorem take_flipBit_of_le (s : List Byte) {i n : Nat} (j : Nat) (h : n ≤ i) : (flipBit s i j).take n = s.take n := by
  rw [take_flipBit, flipBit_of_length_le (by rw [List.length_take]; omega)]

theorem drop_flipBit_of_le (s : List Byte) {i n : Nat} (j : Nat) (h : n ≤ i) :
    (flipBit s i j).drop n = flipBit (s.drop n) (i - n) j := List.drop_modify_of_ge _ _ _ _ h

theorem drop_flipBit_of_lt (s : List Byte) {i n : Nat} (j : Nat) (h : i < n) : (flipBit s i j).drop n = s.drop n :=
  List.drop_modify_of_lt _ _ _ _ h

/-- Bytes a to b-1 are as they were when the flip is before them or after them. -/
theorem slice_flipBit_of_outside (s : List Byte) {i a b : Nat} (j : Nat) (h : i < a ∨ b ≤ i) :
    slice (flipBit s i j) a b = slice s a b := by
  obtain h | h := h
  · rw [slice, drop_flipBit_of_lt s j h, slice]
  · rw [slice, ← List.drop_take, take_flipBit_of_le s j h, List.drop_take, slice]

theorem slice_flipBit_ne {s : List Byte} {i j a b : Nat} (ha : a ≤ i) (hb : i < b) (hi : i < s.length) (hj : j < 8) :
    slice (flipBit s i j) a b ≠ slice s a b := by
  rw [slice, drop_flipBit_of_le s j ha, take_flipBit]
  exact flipBit_ne (by rw [List.length_take, List.length_drop]; omega) hj

/-! ### The two checks of a flipped frame -/

theorem validateHeaderChecksum_iff_field (c : Config) (h : List Byte) :
    validateHeaderChecksum c h = true ↔ (csumOf c (h.take 12)).toNat = decodeUint (slice h 12 14) 2 := by
  rw [validateHeaderChecksum, slice_zero, beq_iff_eq]

theorem decodeUint_injective {s t : List Byte} {w : Nat} (hs : s.length = w) (ht : t.length = w)
    (h : decodeUint s w = decodeUint t w) : s = t := by
  rw [← uintBytes_decodeUint hs, h, uintBytes_decodeUint ht]

/-- A flip in the checked bytes changes their checksum, a flip in the checksum field changes the field, and neither changes both. -/
theorem validateHeaderChecksum_flipBit {h : List Byte} {i j : Nat} (hl : h.length = 16) (hi : i < 14) (hj : j < 8)
    (hv : validateHeaderChecksum Config.block h = true) : validateHeaderChecksum Config.block (flipBit h i j) = false := by
  rw [validateHeaderChecksum_iff_field] at hv
  rw [Bool.eq_false_iff, ne_eq, validateHeaderChecksum_iff_field]
  intro hv'
  by_cases h12 : i < 12
  · rw [slice_flipBit_of_outside h j (.inl h12), ← hv, take_flipBit] at hv'
    exact csumOf_flipBit_ne rfl (by rw [List.length_take]; omega) hj (BitVec.eq_of_toNat_eq hv')
  · rw [take_flipBit_of_le h j (by omega), hv] at hv'
    exact slice_flipBit_ne (by omega) hi (by omega) hj
      (decodeUint_injective (by simp [slice_length, hl]) (by simp [slice_length, hl]) hv'.symm)

/-- A frame as R85 asks of it, but for the payload checksum. -/
def framed (c : Config) (f : List Byte) : Prop :=
  16 ≤ f.length ∧ validateHeaderChecksum c (f.take 16) = true ∧
    (decodeHeader (f.take 16)).payloadLength.toNat ≤ c.maxPayload ∧ f.length = 16 + (decodeHeader (f.take 16)).payloadLength.toNat

theorem validFrame_iff_framed (c : Config) (f : List Byte) :
    validFrame c f = true ↔ framed c f ∧ csumOf c (f.drop 16) = (decodeHeader (f.take 16)).payloadChecksum := by
  simp only [validFrame_iff, framed, and_assoc]

theorem framed_flipBit {c : Config} {f : List Byte} {i : Nat} (j : Nat) (hi : 14 ≤ i) (hf : framed c f) :
    framed c (flipBit f i j) := by
  have hv : validateHeaderChecksum c ((flipBit f i j).take 16) = validateHeaderChecksum c (f.take 16) := by
    rw [take_flipBit, validateHeaderChecksum, slice_flipBit_of_outside _ j (.inr (by omega)),
      slice_flipBit_of_outside _ j (.inr hi), validateHeaderChecksum]
  have hlen : (decodeHeader ((flipBit f i j).take 16)).payloadLength = (decodeHeader (f.take 16)).payloadLength := by
    rw [take_flipBit, decodeHeader, slice_flipBit_of_outside (a := 8) _ j (.inr (by omega)), decodeHeader]
  rwa [framed, flipBit_length, hv, hlen]

theorem slice_payloadChecksum {h : List Byte} (hl : h.length = 16) :
    uintBytes 2 (decodeHeader h).payloadChecksum.toNat = slice h 14 16 :=
  uintBytes_field (a := 14) (w := 2) (n := 16) rfl hl.ge

/-- A flip in the payload checksum field changes the field, a flip in the payload changes its checksum, and neither changes both. -/
theorem payloadChecksum_flipBit {f : List Byte} {i j : Nat} (hmin : 16 ≤ f.length) (hi : 14 ≤ i) (hil : i < f.length) (hj : j < 8)
    (hsum : csumOf Config.block (f.drop 16) = (decodeHeader (f.take 16)).payloadChecksum) :
    csumOf Config.block ((flipBit f i j).drop 16) ≠ (decodeHeader ((flipBit f i j).take 16)).payloadChecksum := by
  have hl : (f.take 16).length = 16 := List.length_take_of_le hmin
  by_cases h16 : i < 16
  · rw [drop_flipBit_of_lt f j h16, hsum, take_flipBit]
    intro heq
    have hfield := congrArg (fun x : Half => uintBytes 2 x.toNat) heq
    rw [slice_payloadChecksum hl, slice_payloadChecksum (by simpa using hl)] at hfield
    exact slice_flipBit_ne hi h16 (by omega) hj hfield.symm
  · rw [take_flipBit_of_le f j (by omega), drop_flipBit_of_le f j (by omega), ← hsum]
    exact csumOf_flipBit_ne rfl (by rw [List.length_drop]; omega) hj

/-! ### A frame whose payload checksum fails -/

theorem feed_framed_badPayload {f : List Byte} {s : State} (hf : framed Config.block f) (hs : s.atHeaderStart)
    (hsum : csumOf Config.block (f.drop 16) ≠ (decodeHeader (f.take 16)).payloadChecksum) :
    feed f s = { s with discards := s.discards ++ [⟨.payloadCsum, f.length⟩] } := by
  obtain ⟨hmin, hv, hbound, hlen⟩ := hf
  have ⟨_, hp, hb⟩ := hs
  have hbad : ¬payloadChecksumOk Config.block (decodeHeader (f.take 16)) (f.drop 16) = true :=
    (payloadChecksumOk_iff _ _ _).not.mpr hsum
  have hpay : (f.drop 16).length = (decodeHeader (f.take 16)).payloadLength.toNat := by rw [List.length_drop]; omega
  have hheader := (feed_header hp hb (List.length_take_of_le hmin)).trans (headerComplete_of_valid hv hbound)
  conv_lhs => rw [← List.take_append_drop 16 f, feed_append, hheader]
  by_cases hz : (decodeHeader (f.take 16)).payloadLength = 0
  · have hzero : (f.drop 16).length = 0 := by rw [hpay, hz]; rfl
    have hnil : f.drop 16 = [] := List.length_eq_zero_iff.mp hzero
    rw [hnil] at hbad ⊢
    rw [if_pos hz, if_neg hbad, feed_nil, discard_of_atHeaderStart hs _ s.rxPend, hlen, ← hpay, hzero]
  · rw [if_neg hz, feed_payload rfl rfl hpay (hpay ▸ payloadLength_pos hz), payloadComplete, if_neg hbad, hlen, ← hpay]
    exact discard_of_atHeaderStart hs _ _ _ _

/-! ### The statement -/

/-- Settles O40: a flip in bytes 0 to 13 fails the header check, and a later one leaves a frame whose payload check fails. -/
theorem flippedFrameDropped : Obligations.FlippedFrameDropped := by
  intro f i j s hs hf hi hj
  obtain ⟨hframed, hsum⟩ := (validFrame_iff_framed _ f).mp hf
  have ⟨hmin, hv, _, _⟩ := hframed
  have ⟨hpow, hp, hb⟩ := hs
  have hl : (f.take 16).length = 16 := List.length_take_of_le hmin
  refine ⟨fun h14 => ?_, fun h14 => ?_⟩
  · have hbad := validateHeaderChecksum_flipBit hl h14 hj hv
    have hdiscard := headerComplete_of_badChecksum (s := { s with rxBuf := flipBit (f.take 16) i j }) hbad
    rw [runInstrs_rxFeed _ hpow, take_flipBit, feed_header hp hb (by rw [flipBit_length, hl]), hdiscard,
      discard_of_atHeaderStart hs _ s.rxPend]
  · rw [runInstrs_rxFeed _ hpow, feed_framed_badPayload (framed_flipBit j h14 hframed) hs
      (payloadChecksum_flipBit hmin h14 hi hj hsum), flipBit_length]

end Sys2Proof.Machine
end


section
/-! The incremental receiver (spec/42_unpacker.md R105; 10_state.md R22): its registers are functions of what RX.BYTE has buffered. -/

namespace Sys2Proof.Machine

/-! ### The registers of the incremental receiver -/

/-- The incremental receiver with these header bytes so far. -/
def IncFrx.inHeader (c : Config) (buf : List Byte) (ds : List Packet) : IncFrx :=
  { IncFrx.atHeaderStart ds with
    headerBits := BitVec.ofNat 128 (beValue buf), headerCount := buf.length, headerAcc := csumFold c (buf.take 12) }

/-- The incremental receiver with this header accepted and these payload bytes so far. -/
def IncFrx.inPayload (c : Config) (bits : BitVec 128) (buf : List Byte) (ds : List Packet) : IncFrx :=
  { IncFrx.atHeaderStart ds with awaitingPayload := true, headerBits := bits, payload := buf, payloadAcc := csumFold c buf }

section
variable (c : Config) (buf : List Byte) (ds : List Packet)

@[simp] theorem IncFrx.inHeader_awaitingPayload : (IncFrx.inHeader c buf ds).awaitingPayload = false := rfl
@[simp] theorem IncFrx.inHeader_headerBits : (IncFrx.inHeader c buf ds).headerBits = BitVec.ofNat 128 (beValue buf) := rfl
@[simp] theorem IncFrx.inHeader_headerCount : (IncFrx.inHeader c buf ds).headerCount = buf.length := rfl
@[simp] theorem IncFrx.inHeader_headerAcc : (IncFrx.inHeader c buf ds).headerAcc = csumFold c (buf.take 12) := rfl
@[simp] theorem IncFrx.inHeader_deliveries : (IncFrx.inHeader c buf ds).deliveries = ds := rfl

variable (bits : BitVec 128)

@[simp] theorem IncFrx.inPayload_awaitingPayload : (IncFrx.inPayload c bits buf ds).awaitingPayload = true := rfl
@[simp] theorem IncFrx.inPayload_headerBits : (IncFrx.inPayload c bits buf ds).headerBits = bits := rfl
@[simp] theorem IncFrx.inPayload_payload : (IncFrx.inPayload c bits buf ds).payload = buf := rfl
@[simp] theorem IncFrx.inPayload_payloadAcc : (IncFrx.inPayload c bits buf ds).payloadAcc = csumFold c buf := rfl
@[simp] theorem IncFrx.inPayload_deliveries : (IncFrx.inPayload c bits buf ds).deliveries = ds := rfl

end

/-- The two receivers have seen the same stream. -/
inductive IncRefines (c : Config) (s : State) : IncFrx → Prop where
  | header (hp : s.rxPend = none) (hl : s.rxBuf.length < 16) : IncRefines c s (.inHeader c s.rxBuf s.deliveries)
  | payload {bits : BitVec 128} (hp : s.rxPend = some (headerOfBits bits)) : IncRefines c s (.inPayload c bits s.rxBuf s.deliveries)

theorem IncRefines.atHeaderStart (c : Config) {s : State} (hp : s.rxPend = none) (hb : s.rxBuf = []) :
    IncRefines c s (.atHeaderStart s.deliveries) := by
  have h := IncRefines.header (c := c) hp (by simp [hb])
  rwa [hb] at h

/-! ### A byte of a header -/

/-- Shifting a byte in at the low end is the value of one more byte (30_encoding.md R52). -/
theorem shiftIn_byte (buf : List Byte) (b : Byte) :
    BitVec.ofNat 128 (beValue buf) <<< 8 ||| b.setWidth 128 = BitVec.ofNat 128 (beValue (buf ++ [b])) := by
  have hb := b.isLt
  have hshift : ((beValue buf % 2 ^ 128) <<< 8) % 2 ^ 128 = (beValue buf % 2 ^ 120) <<< 8 := by
    rw [Nat.shiftLeft_eq, Nat.shiftLeft_eq]; omega
  have hlast : beValue [b] = b.toNat := by simp [beValue]
  apply BitVec.eq_of_toNat_eq
  rw [BitVec.toNat_or, BitVec.toNat_shiftLeft, BitVec.toNat_setWidth, BitVec.toNat_ofNat, BitVec.toNat_ofNat, hshift,
    Nat.mod_eq_of_lt (by omega : b.toNat < 2 ^ 128), ← Nat.shiftLeft_add_eq_or_of_lt hb, Nat.shiftLeft_eq, beValue_append, hlast,
    List.length_singleton]
  omega

/-- The header accumulator takes header bytes 0 to 11 and keeps its value from there on. -/
theorem inHeader_headerAcc_step (c : Config) (buf : List Byte) (b : Byte) (ds : List Packet) :
    (if (IncFrx.inHeader c buf ds).headerCount < 12 then
        csumStep c (IncFrx.inHeader c buf ds).headerAcc.1 (IncFrx.inHeader c buf ds).headerAcc.2 b
      else (IncFrx.inHeader c buf ds).headerAcc) = csumFold c ((buf ++ [b]).take 12) := by
  split
  case isTrue h =>
    rw [IncFrx.inHeader_headerCount] at h
    rw [IncFrx.inHeader_headerAcc, ← csumFold_concat, List.take_of_length_le h.le, List.take_of_length_le (by simpa using h)]
  case isFalse h =>
    rw [IncFrx.inHeader_headerCount] at h
    rw [IncFrx.inHeader_headerAcc, List.take_append_of_le_length (by omega)]

theorem incByte_inHeader_part (c : Config) {buf : List Byte} (b : Byte) (ds : List Packet) (hl : buf.length + 1 < 16) :
    incByte c b (.inHeader c buf ds) = .inHeader c (buf ++ [b]) ds := by
  simp only [incByte, inHeader_headerAcc_step]
  simp [headerSize_eq, hl, shiftIn_byte, IncFrx.inHeader, IncFrx.atHeaderStart]

/-- What the incremental receiver does with a whole header `h`, in the terms of R91 to R93. -/
def incHeaderComplete (c : Config) (h : List Byte) (ds : List Packet) : IncFrx :=
  if csumOf c (h.take 12) ≠ (decodeHeader h).headerChecksum ∨ oversized c (decodeHeader h) then .atHeaderStart ds
  else if (decodeHeader h).payloadLength = 0 then
    if (decodeHeader h).payloadChecksum = 0 then .atHeaderStart (ds ++ [fromWire (decodeHeader h) []]) else .atHeaderStart ds
  else .inPayload c (BitVec.ofNat 128 (beValue h)) [] ds

theorem headerOfBits_beValue {h : List Byte} (hl : h.length = 16) : headerOfBits (BitVec.ofNat 128 (beValue h)) = decodeHeader h := by
  rw [decodeHeader_eq_headerOfBits hl, decodeUint_eq_beValue, List.take_of_length_le hl.le]

theorem incByte_inHeader_complete (c : Config) {buf : List Byte} (b : Byte) (ds : List Packet) (hl : buf.length + 1 = 16) :
    incByte c b (.inHeader c buf ds) = incHeaderComplete c (buf ++ [b]) ds := by
  have h16 : (buf ++ [b]).length = 16 := List.length_append.trans hl
  simp only [incByte, inHeader_headerAcc_step]
  simp only [IncFrx.inHeader_awaitingPayload, IncFrx.inHeader_headerBits, IncFrx.inHeader_headerCount, IncFrx.inHeader_deliveries,
    headerSize_eq, hl, shiftIn_byte, headerOfBits_beValue h16, Bool.false_eq_true, Nat.lt_irrefl, if_false]
  rfl

/-- The header check against the decoded field (41_header_packet.md R78). -/
theorem validateHeaderChecksum_iff_decoded (c : Config) {h : List Byte} (hl : h.length = 16) :
    validateHeaderChecksum c h = true ↔ csumOf c (h.take 12) = (decodeHeader h).headerChecksum := by
  have hlt : decodeUint (slice h 12 14) 2 < 2 ^ 16 := decodeUint_lt (by simp [slice_length, hl])
  have hfield : (decodeHeader h).headerChecksum.toNat = decodeUint (slice h 12 14) 2 := by
    rw [decodeHeader, BitVec.toNat_ofNat, Nat.mod_eq_of_lt hlt]
  rw [validateHeaderChecksum_iff_field, ← hfield]
  exact BitVec.toNat_inj

theorem incRefines_headerComplete {c : Config} {s : State} (hl : s.rxBuf.length = 16) :
    IncRefines c (headerComplete c s) (incHeaderComplete c s.rxBuf s.deliveries) := by
  have hfield := validateHeaderChecksum_iff_decoded c hl
  have hpay := payloadChecksumOk_nil_iff c (decodeHeader s.rxBuf)
  obtain ⟨hv, h⟩ | ⟨hv, ho, h⟩ | ⟨hv, ho, hz, hsum, h⟩ | ⟨hv, ho, hz, hsum, h⟩ | ⟨hv, ho, hz, h⟩ := headerComplete_cases c s
  all_goals rw [h, incHeaderComplete]
  · rw [if_pos (.inl (hfield.not.mp (by simp [hv])))]
    exact .atHeaderStart c rfl rfl
  · rw [if_pos (.inr ho)]
    exact .atHeaderStart c rfl rfl
  · rw [if_neg (by simp [← hfield, hv, ho]), if_pos hz, if_pos (hpay.mp hsum)]
    exact .atHeaderStart c rfl rfl
  · rw [if_neg (by simp [← hfield, hv, ho]), if_pos hz, if_neg (hpay.not.mp (by simp [hsum]))]
    exact .atHeaderStart c rfl rfl
  · rw [if_neg (by simp [← hfield, hv, ho]), if_neg hz]
    exact .payload (congrArg some (headerOfBits_beValue hl).symm)

/-! ### A byte of a payload -/

theorem incByte_inPayload (c : Config) (bits : BitVec 128) (buf : List Byte) (b : Byte) (ds : List Packet) :
    incByte c b (.inPayload c bits buf ds) =
      if buf.length + 1 < (headerOfBits bits).payloadLength.toNat then .inPayload c bits (buf ++ [b]) ds
      else if payloadChecksumOk c (headerOfBits bits) (buf ++ [b]) then
        .atHeaderStart (ds ++ [fromWire (headerOfBits bits) (buf ++ [b])])
      else .atHeaderStart ds := by
  simp only [incByte, IncFrx.inPayload_awaitingPayload, IncFrx.inPayload_headerBits, IncFrx.inPayload_payload,
    IncFrx.inPayload_payloadAcc, IncFrx.inPayload_deliveries, ← csumFold_concat, payloadChecksumOk, csumOf, if_true, beq_iff_eq,
    List.length_append, List.length_singleton]
  rfl

/-! ### The refinement -/

theorem incRefines_rxByteEffect {c : Config} {s : State} {r : IncFrx} (b : Byte) (h : IncRefines c s r) :
    IncRefines c (rxByteEffect c b s) (incByte c b r) := by
  have hlen : (s.rxBuf ++ [b]).length = s.rxBuf.length + 1 := by simp
  cases h with
  | header hp hl =>
    rw [rxByteEffect_of_none c b hp]
    split
    case isTrue hpart =>
      rw [incByte_inHeader_part c b _ hpart]
      exact .header (s := s.bufAppend b) hp (hlen.trans_lt hpart)
    case isFalse hdone =>
      rw [incByte_inHeader_complete c b _ (by omega)]
      exact incRefines_headerComplete (s := s.bufAppend b) (by rw [State.bufAppend_rxBuf]; omega)
  | payload hp =>
    rw [rxByteEffect_of_some c b hp, incByte_inPayload]
    split
    case isTrue => exact .payload (s := s.bufAppend b) hp
    case isFalse =>
      rw [payloadComplete, State.bufAppend_rxBuf]
      split
      · exact .atHeaderStart c rfl rfl
      · exact .atHeaderStart c rfl rfl

theorem incRefines_feed {s : State} {r : IncFrx} (bs : List Byte) (h : IncRefines Config.block s r) :
    IncRefines Config.block (feed bs s) (incFeed Config.block bs r) := by
  induction bs generalizing s r with
  | nil => exact h
  | cons b bs ih => exact ih (incRefines_rxByteEffect b h)

theorem IncRefines.outputs {c : Config} {s : State} {r : IncFrx} (h : IncRefines c s r) :
    r.deliveries = s.deliveries ∧ (r.awaitingPayload = true ↔ s.fsm = .awaitingPayload) := by
  rw [State.fsm_eq_awaitingPayload]
  cases h with
  | header hp hl => simp [hp]
  | payload hp => simp [hp]

/-- Settles O43: the two receivers agree at a header start, and every byte keeps them in step. -/
theorem incrementalReceiverRefines : Obligations.IncrementalReceiverRefines := by
  intro bs s hs
  obtain ⟨hpow, hp, hb⟩ := hs
  exact ⟨_, runInstrs_rxFeed bs hpow, (incRefines_feed bs (.atHeaderStart Config.block hp hb)).outputs⟩

end Sys2Proof.Machine
end

section
/-! Faults, refusals and discards (spec/60_exceptions.md R108, R118, R119, R125): what a step records when a word is issued before the
first reset, out of turn or not at all, and which row of the discard table an RX.BYTE writes to the log. -/

namespace Sys2Proof.Machine

/-! ### Nothing on the inputs -/

theorem step_of_port_nil {s : State} (h : s.port = []) : step s = .next s := by
  simp only [step, portStep, h, configured_block]

/-- Settles O51: neither an empty queue nor an idle event reaches a command. -/
theorem idleBlockHoldsState : Obligations.IdleBlockHoldsState :=
  fun _ => ⟨step_of_port_nil, fun _ => step_of_port_cons⟩

/-! ### Before the first reset -/

/-- Before the first reset a command and a reserved word fault alike, each with the word issued (R118, log entry 4). -/
theorem runWord_of_not_poweredUp (cw : CmdWord) {s : State} (h : s.poweredUp = false) :
    runWord cw s = .next (s.raiseFault (.notReset cw)) := by
  cases hd : decode cw with
  | instr i => rw [runWord_instr hd, exec_of_not_poweredUp i h, encode_of_decode hd]
  | reserved w => rw [runWord_reserved hd, refuseReserved, if_neg (by simp [h])]

/-- Settles O46: the step of a plain word is the word's own, which faults. -/
theorem commandBeforeResetFaults : Obligations.CommandBeforeResetFaults := fun s cw rest hs hp =>
  (step_command hp).trans (runWord_of_not_poweredUp cw (s := { s with port := rest }) hs)

/-! ### Words issued out of turn -/

/-- No word sets or clears `powered_up`: only `rst` does (70_reset_and_hazards.md R128). -/
theorem runWord_poweredUp {cw : CmdWord} {s t : State} (h : runWord cw s = .next t) : t.poweredUp = s.poweredUp := by
  obtain hsame | ⟨i, -, -, rfl⟩ := runWord_cases h
  · exact hsame.poweredUp_eq
  · exact effect_poweredUp i s

theorem refuseOverlapping_of_poweredUp (cws : List CmdWord) {s : State} (h : s.poweredUp = true) :
    refuseOverlapping cws s = { s with refused := s.refused ++ List.replicate cws.length .overlap } := by
  rw [refuseOverlapping, if_pos h, List.map_const']

theorem refuseReentrant_eq (cws : List CmdWord) (s : State) :
    refuseReentrant cws s = { s with refused := s.refused ++ List.replicate cws.length .reentrant } := by
  rw [refuseReentrant, List.map_const']

theorem delivered_iff (s t : State) : delivered s t = true ↔ s.deliveries.length < t.deliveries.length := decide_eq_true_iff

/-- Settles O47: the word's own effect leaves the block reset, so the overlapping words are refused, and the consumer's are when there
is a delivery for it to issue them from. -/
theorem overlapAndReentryRefused : Obligations.OverlapAndReentryRefused := by
  intro s t q rest hs hp hword
  have hstep : step s = takeIssue q { s with port := rest } := step_of_port_cons hp
  have hpow : t.poweredUp = true := (runWord_poweredUp hword).trans hs
  have hdel : delivered { s with port := rest } t = true ↔ s.deliveries.length < t.deliveries.length := delivered_iff _ t
  rw [hstep, takeIssue_eq hword, refuseOverlapping_of_poweredUp _ hpow, refuseReentrant_eq]
  by_cases hd : s.deliveries.length < t.deliveries.length
  · rw [if_pos (hdel.mpr hd), if_pos hd]
  · rw [if_neg (hdel.not.mpr hd), if_neg hd, List.append_nil]

/-! ### The discard table -/

/-- The rows of R108 that the bytes of a completed header can meet, as code and bytes dropped. -/
def headerDiscardRow (c : Config) (h : List Byte) (code n : Nat) : Prop :=
  (code = 1 ∧ n = 16 ∧ ¬validateHeaderChecksum c h = true) ∨
  (code = 2 ∧ n = 16 ∧ validateHeaderChecksum c h = true ∧ c.maxPayload < (decodeHeader h).payloadLength.toNat) ∨
  (code = 3 ∧ n = 16 ∧ validateHeaderChecksum c h = true ∧ (decodeHeader h).payloadLength.toNat = 0 ∧
    csumOf c [] ≠ (decodeHeader h).payloadChecksum)

/-- The row of R108 that the bytes of a completed payload can meet. -/
def payloadDiscardRow (c : Config) (hd : Header) (payload : List Byte) (code n : Nat) : Prop :=
  code = 3 ∧ n = 16 + payload.length ∧ csumOf c payload ≠ hd.payloadChecksum

/-- From `s` to `t` the discard log gains one record that meets a row, or no record is due and none is added. -/
def logsRow (row : Nat → Nat → Prop) (s t : State) : Prop :=
  (t.discardLog = s.discardLog ∧ ∀ code n, ¬row code n) ∨ ∃ code n, row code n ∧ t.discardLog = s.discardLog ++ [(code, n)]

theorem logsRow_congr {row row' : Nat → Nat → Prop} (h : ∀ code n, row code n ↔ row' code n) (s t : State) :
    logsRow row s t ↔ logsRow row' s t := by
  simp only [logsRow, h]

theorem logsRow_discard {row : Nat → Nat → Prop} (s : State) {r : DiscardReason} {n : Nat} (h : row r.code n) :
    logsRow row s (s.discard r n) :=
  .inr ⟨_, _, h, s.discard_discardLog r n⟩

/-- A header that passes both checks, and whose empty payload, if that is what it declares, passes the third, meets no row. -/
theorem not_headerDiscardRow {c : Config} {h : List Byte} (hv : validateHeaderChecksum c h = true)
    (ho : oversized c (decodeHeader h) = false)
    (hsum : (decodeHeader h).payloadLength.toNat = 0 → csumOf c [] = (decodeHeader h).payloadChecksum) (code n : Nat) :
    ¬headerDiscardRow c h code n := by
  have hbound := (oversized_eq_false_iff c _).mp ho
  rintro (⟨-, -, hbad⟩ | ⟨-, -, -, hlong⟩ | ⟨-, -, -, hempty, hbad⟩)
  · exact hbad hv
  · omega
  · exact hbad (hsum hempty)

/-- A completed header is logged by the row of the check it fails, and not at all when it is accepted or its empty payload delivered. -/
theorem headerComplete_logsRow (c : Config) (s : State) : logsRow (headerDiscardRow c s.rxBuf) s (headerComplete c s) := by
  have hpay := payloadChecksumOk_iff c (decodeHeader s.rxBuf) []
  obtain ⟨hv, h⟩ | ⟨hv, ho, h⟩ | ⟨hv, ho, -, hsum, h⟩ | ⟨hv, -, hz, hsum, h⟩ | ⟨hv, ho, hz, h⟩ := headerComplete_cases c s
  all_goals rw [h]
  · exact logsRow_discard s (.inl ⟨rfl, rfl, by simp [hv]⟩)
  · exact logsRow_discard s (.inr (.inl ⟨rfl, rfl, hv, (oversized_eq_true_iff c _).mp ho⟩))
  · exact .inl ⟨rfl, not_headerDiscardRow hv ho fun _ => hpay.mp hsum⟩
  · exact logsRow_discard s (.inr (.inr ⟨rfl, rfl, hv, by rw [hz]; rfl, hpay.not.mp (by simp [hsum])⟩))
  · have hpos := payloadLength_pos hz
    exact .inl ⟨rfl, not_headerDiscardRow hv ho fun hempty => by omega⟩

theorem payloadComplete_logsRow (c : Config) (hd : Header) (s : State) :
    logsRow (payloadDiscardRow c hd s.rxBuf) s (payloadComplete c hd s) := by
  have hpay := payloadChecksumOk_iff c hd s.rxBuf
  rw [payloadComplete, headerSize_eq]
  split
  case isTrue hsum => exact .inl ⟨rfl, fun _ _ ⟨_, _, hbad⟩ => hbad (hpay.mp hsum)⟩
  case isFalse hsum => exact logsRow_discard s ⟨rfl, rfl, hpay.not.mp hsum⟩

/-- Settles O60: the byte completes nothing and meets no row, or it completes a header or a payload, whose rows say what is logged. The
invariant makes a header complete at 16 bytes exactly and a payload at its declared length exactly. -/
theorem discardRecordsFollowTable : Obligations.DiscardRecordsFollowTable := by
  intro b s t hs hinv hexec buf headerDone len sumOk cause
  obtain ⟨hfrx, -⟩ := hinv hs
  have hlen : buf.length = s.rxBuf.length + 1 := List.length_append
  rw [exec_of_poweredUp _ hs, effect] at hexec
  injection hexec with hexec
  subst hexec
  change logsRow cause s _
  cases hp : s.rxPend with
  | none =>
    have hbound := rxBuf_length_le_of_frxInv_none hfrx hp
    rw [rxByteEffect_of_none _ b hp]
    split
    case isTrue hpart =>
      exact .inl ⟨rfl, fun code n => by simp [cause, headerDone, hp, show buf.length ≠ 16 by omega]⟩
    case isFalse hfull =>
      have hrow (code n) : cause code n ↔ headerDiscardRow Config.block buf code n := by
        simp [cause, headerDone, sumOk, len, headerDiscardRow, maxPayload_block, hp, show buf.length = 16 by omega]
      exact (logsRow_congr hrow _ _).mpr (headerComplete_logsRow Config.block (s.bufAppend b))
  | some hd =>
    obtain ⟨hbound, -⟩ := bounds_block_of_frxInv_some hfrx hp
    rw [rxByteEffect_of_some _ b hp]
    split
    case isTrue hpart =>
      exact .inl ⟨rfl, fun code n => by simp [cause, headerDone, hp, show buf.length ≠ hd.payloadLength.toNat by omega]⟩
    case isFalse hfull =>
      have hdone : buf.length = hd.payloadLength.toNat := by omega
      have hrow (code n) : cause code n ↔ payloadDiscardRow Config.block hd buf code n := by
        simp [cause, headerDone, payloadDiscardRow, hp, hdone]
      exact (logsRow_congr hrow _ _).mpr (payloadComplete_logsRow Config.block hd (s.bufAppend b))

end Sys2Proof.Machine
end

section
/-! Reset and hazards (spec/70_reset_and_hazards.md R126 to R128, R136, R138): what `rst` and the two partial resets set, and what FRX does
with a frame that stops short and with a stream of zero bytes. -/

namespace Sys2Proof.Machine

/-! ### Reset -/

/-- `rst` wins over whatever is issued with it (R127). -/
theorem takeEvent_of_rst {e : HostEvent} (h : e.rst = true) (s : State) : takeEvent e s = .next s.assertRst := if_pos h

/-- Settles O48: both events assert `rst`, so both answer the state of `assertRst`. -/
theorem resetSetsEveryElement : Obligations.ResetSetsEveryElement := fun s =>
  ⟨⟨s.assertRst, takeEvent_of_rst rfl s, s.assertRst_csValue, s.assertRst_csPrev, s.assertRst_rxBuf, s.assertRst_rxPend,
    State.fsm_of_none s.assertRst_rxPend, s.assertRst_deliveries, s.assertRst_discards, s.assertRst_poweredUp, s.assertRst_fault,
    s.assertRst_refused⟩,
    fun _ => (takeEvent_of_rst rfl s).trans (takeEvent_of_rst rfl s).symm⟩

/-! ### Partial resets -/

/-- CS.RESET has the effect of `rst` on the CSUM registers alone (R128). -/
theorem effect_csReset_eq_assertRst (s : State) :
    effect .csReset s = { s with csValue := s.assertRst.csValue, csPrev := s.assertRst.csPrev } := rfl

/-- RX.RESET has the effect of `rst` on the FRX registers alone, and keeps `deliveries` and `discards` (R128). -/
theorem effect_rxReset_eq_assertRst (s : State) :
    effect .rxReset s = { s with rxBuf := s.assertRst.rxBuf, rxPend := s.assertRst.rxPend } := rfl

/-- A command before the first reset faults and does not set `powered_up` (R118, R128). -/
theorem exec_onlyFaults_poweredUp {i : Instr} {cw : CmdWord} {s : State} (hcw : encode i = cw) (h : s.poweredUp = false) :
    ∃ t, exec i s = .next t ∧ onlyFaults s t (.notReset cw) ∧ t.poweredUp = false := by
  obtain ⟨t, hexec, hfault⟩ := exec_onlyFaults hcw h
  have ⟨_, hsame⟩ := hfault
  exact ⟨t, hexec, hfault, (congrArg State.poweredUp hsame).trans h⟩

/-- Settles O50: each partial reset is `rst` on its own unit's registers and nothing else; before the first reset it only faults. -/
theorem partialResetsMatchReset : Obligations.PartialResetsMatchReset := by
  intro s
  refine ⟨fun hs => ?_, fun hs => ?_⟩
  · have hcs := exec_of_poweredUp .csReset hs
    have hrx := exec_of_poweredUp .rxReset hs
    rw [effect_csReset_eq_assertRst] at hcs
    rw [effect_rxReset_eq_assertRst] at hrx
    exact ⟨_, _, _, hcs, hrx, takeEvent_of_rst rfl s, rfl, rfl, rfl, rfl, rfl, rfl, rfl, rfl⟩
  · obtain ⟨t, hcs, hcsFault, hcsPow⟩ := exec_onlyFaults_poweredUp (i := .csReset) rfl hs
    obtain ⟨u, hrx, hrxFault, hrxPow⟩ := exec_onlyFaults_poweredUp (i := .rxReset) rfl hs
    exact ⟨t, u, hcs, hrx, hcsFault, hrxFault, hcsPow, hrxPow⟩

/-! ### Frames that stop short -/

/-- Settles O41: bytes that complete neither a header nor a payload only join an empty buffer. -/
theorem partialFramesWait : Obligations.PartialFramesWait := by
  refine ⟨fun bs s ⟨hpow, hp, hb⟩ hl => ?_, fun bs s hd hpow hp hb hl => ?_⟩
  · rw [runInstrs_rxFeed bs hpow, feed_header_part hp (by simpa [hb] using hl), hb, List.nil_append]
  · rw [runInstrs_rxFeed bs hpow, feed_payload_part hp (by simpa [hb] using hl), hb, List.nil_append]

/-! ### Zero bytes -/

theorem decodeHeader_zeros : decodeHeader (List.replicate 16 0) = ⟨0, 0, 0, 0, 0, 0⟩ := by decide

/-- An all-zero header is a valid frame with an empty payload: its checksum fields hold the checksum 0 of zero bytes and of no bytes (R74). -/
theorem validFrame_zeros (c : Config) : validFrame c (List.replicate 16 0) = true := by
  obtain ⟨-, hcheck⟩ := headerCheckCoversTwelveBytes c (List.replicate 16 0) List.length_replicate
  rw [validFrame_iff, List.take_of_length_le (i := 16) (by simp), decodeHeader_zeros]
  exact ⟨by simp, hcheck, Nat.zero_le _, by simp, csumOf_nil c⟩

theorem framePacket_zeros : framePacket (List.replicate 16 0) = ⟨⟨0, 0, 0, 0, 0, 0⟩, []⟩ := by
  rw [framePacket_eq, List.take_of_length_le (i := 16) (by simp), decodeHeader_zeros]
  rfl

/-- Settles O42: the stream is `n` valid frames of 16 zero bytes. -/
theorem zeroBytesAreFrames : Obligations.ZeroBytesAreFrames := by
  intro n s hs
  have hstream : List.replicate (16 * n) (0 : Byte) = (List.replicate n (List.replicate 16 0)).flatten := by
    rw [List.flatten_replicate_replicate, Nat.mul_comm]
  have hvalid : ∀ f ∈ List.replicate n (List.replicate 16 0), validFrame Config.block f = true := fun f hf =>
    List.eq_of_mem_replicate hf ▸ validFrame_zeros Config.block
  have ⟨hpow, _, _⟩ := hs
  rw [runInstrs_rxFeed _ hpow, hstream, feed_validFrames hvalid hs, List.map_replicate, framePacket_zeros]

end Sys2Proof.Machine
end
